-- ==== Sys2Proof/Word.lean ====
section
/-! DEFINITION. The words of BRC: the byte of the buffer, the codec value `u128`, the response word. -/

namespace Sys2Proof

/-- A byte of `BUF` (10_state.md R20). -/
abbrev Byte := BitVec 8

/-- A codec value, the document's `u128`: `VW = 128` bits (00_scope.md R4, 30_encoding.md R71). -/
abbrev Value := BitVec 128

/-- A response word: `STATUS` in bits 135:128, `DATA` in bits 127:0 (30_encoding.md R76). -/
abbrev ResponseWord := BitVec 136

end Sys2Proof
end

