-- ==== Sys2Proof/Config.lean ====
section
/-! DEFINITION. What an implementation of BRC fixes: the configuration `CFG` (00_scope.md R4), the
declarations it is elaborated from and the configuration errors (42_configuration.md). The functions
over these types stand in Machine/Planner.lean. BRC has no free value: "No run-time behaviour of BRC
is left to a draw" (93_implementation_defined.md). -/

namespace Sys2Proof

/-- A field's name, as its list of characters (00_scope.md R4, `FT[f].name`). -/
abbrev FieldName := List Char

/-- A native width: the ordered set `{8,16,32,64,128}` (00_scope.md R4; 42_configuration.md R150). -/
inductive NativeWidth
  | w8
  | w16
  | w32
  | w64
  | w128
  deriving DecidableEq, Repr

/-- The sort of a field (00_scope.md R4, `FT[f].kind`). -/
inductive Kind
  /-- An unsigned integer of `n` bits (42_configuration.md R152). -/
  | prim (n : Nat)
  /-- A boolean (42_configuration.md R153). -/
  | bool
  /-- An enum: entry `i` is the discriminant of the variant with index `i` (42_configuration.md R157). -/
  | enum (disc : List Nat)
  deriving DecidableEq, Repr

/-- One entry of the field table `FT` (00_scope.md R4). -/
structure Field where
  name : FieldName
  kind : Kind
  /-- `BITS`, the width in bits. -/
  bits : Nat
  /-- `CWID`, the container width. -/
  cwid : NativeWidth
  /-- `off`, the first bit position; the field's range is `[off, off + bits)`. -/
  off : Nat
  deriving DecidableEq, Repr

/-- A configuration `CFG` (00_scope.md R4). `F` is the length of `fields`. -/
structure Config where
  /-- `PW`, the width of a bit-position operand (92_eei_decisions.md D5, default 32). -/
  pw : Nat
  /-- `NB`, the length of the buffer in bytes. -/
  nb : Nat
  /-- `FT`, the field table, in declaration order. -/
  fields : List Field
  deriving DecidableEq, Repr

/-- `NBITS = 8*NB` (00_scope.md R4). -/
def Config.nbits (c : Config) : Nat := 8 * c.nb

/-- DESIGN CHOICE (log 1): the configuration the reset state carries, since the spec gives no
instance of its own: the document's worked struct with fields of widths `[1, 3, 4, 24]`
(42_configuration.md R168; configuration K1 of 95_test_vectors.md), with the default `PW = 32`. -/
def Config.worked : Config where
  pw := 32
  nb := 4
  fields :=
    [{ name := ['a'], kind := .prim 1, bits := 1, cwid := .w8, off := 0 },
     { name := ['b'], kind := .prim 3, bits := 3, cwid := .w8, off := 1 },
     { name := ['c'], kind := .prim 4, bits := 4, cwid := .w8, off := 4 },
     { name := ['d'], kind := .prim 24, bits := 24, cwid := .w32, off := 8 }]

/-- A variant of an enum declaration: "each either bare (positional index = discriminant) or carrying
an explicit integer discriminant literal" (42_configuration.md section 3). -/
inductive Variant
  | bare
  | explicit (literal : Int)
  deriving DecidableEq, Repr

/-- A field's declared type (42_configuration.md R154). -/
inductive TypeDecl
  | prim (n : Nat)
  | bool
  | enum (variants : List Variant)
  /-- Any other type: it was never registered. -/
  | other
  deriving DecidableEq, Repr

/-- One declared field: its name, its type and, optionally, its width assertion
(42_configuration.md R164). -/
structure FieldDecl where
  name : FieldName
  type : TypeDecl
  asserted : Option Nat
  deriving DecidableEq, Repr

/-- The part of a specifier entry that is data: `BITS`, `Container` and the kind, which fixes
`Target`, `to_container` and `from_container` (42_configuration.md section 2). -/
structure Specifier where
  kind : Kind
  bits : Nat
  cwid : NativeWidth
  deriving DecidableEq, Repr

/-- The configuration errors (42_configuration.md R166). None has a status code; a unit is never
built from a failing configuration. -/
inductive ConfigError
  /-- Raised by `best_fit` above 128 bits (R150). -/
  | unsupportedWidth
  /-- Raised by `specifier_of` on a type that was never registered (R154). -/
  | unknownSpecifier
  /-- Raised by the enum derivation (R155). -/
  | nonPowerOfTwoVariantCount
  /-- Raised by the enum derivation (R158). -/
  | discriminantOverflow
  /-- Raised by the enum derivation (R159); the spec's own name. -/
  | duplicateDiscriminant
  /-- Raised by `plan` (R163). -/
  | misalignedLayout
  /-- Raised by `plan` (R164). -/
  | widthMismatch (field : FieldName) (expected actual : Nat)
  deriving DecidableEq, Repr

end Sys2Proof
end

