-- ==== Sys2Proof/Syntax.lean ====
section
/-! DEFINITION. The commands of BRC-1: one constructor per row of spec/opcode_table.json. -/

namespace Sys2Proof

/-- A decoded command (30_encoding.md R73). Positions and field indexes are natural numbers, as every
value of the spec is (00_scope.md R7); the codec value is the 128-bit field `V`. The operand fields a
command ignores (R75) are not part of it. -/
inductive Instr
  /-- `RDBITS start, end` (40_codec.md R103). -/
  | rdbits (start stop : Nat)
  /-- `WRBITS start, end, value` (40_codec.md R104). -/
  | wrbits (start stop : Nat) (value : Value)
  /-- `GET f` (41_accessors.md R133). -/
  | get (f : Nat)
  /-- `SET f, t` (41_accessors.md R134). -/
  | set (f : Nat) (t : Value)
  /-- `NEW` (41_accessors.md R135). -/
  | new
  deriving DecidableEq, Repr

end Sys2Proof
end

