-- ==== Sys2Proof/WellFormed.lean ====
section
/-! DEFINITION. When a command can be written in a command word: its position and index operands fit
the `PW` bits of the fields `A` and `B` (30_encoding.md R70, R71). -/

namespace Sys2Proof

/-- A position or index operand fits its field of `pw` bits (30_encoding.md R71). -/
def fitsPosition (pw n : Nat) : Bool := decide (n < 2 ^ pw)

/-- The command fits a command word whose position operands have `pw` bits. The 128-bit operand `V`
always fits (30_encoding.md R71). -/
def Instr.wellFormed (pw : Nat) : Instr → Bool
  | .rdbits start stop => fitsPosition pw start && fitsPosition pw stop
  | .wrbits start stop _ => fitsPosition pw start && fitsPosition pw stop
  | .get f => fitsPosition pw f
  | .set f _ => fitsPosition pw f
  | .new => true

end Sys2Proof
end

