-- ==== Sys2Proof/Decode.lean ====
section
/-! DEFINITION. The command word and its decoder, total on every word, and after it the encoder
(30_encoding.md R70 to R77). A command word of `8 + 2*PW + 128` bits is held as the natural number it
reads as (log 6). -/

namespace Sys2Proof

/-- The `width` bits of `v` from bit `lo` up: the spec's `v[lo+width-1 : lo]` (00_scope.md R7). -/
def bitField (v lo width : Nat) : Nat := v / 2 ^ lo % 2 ^ width

/-- The width of a command word (30_encoding.md R70). -/
def commandWidth (pw : Nat) : Nat := 8 + 2 * pw + 128

/-- `CMD.OP`, bits `2*PW+135 : 2*PW+128` (30_encoding.md R70). -/
def commandOp (pw w : Nat) : Nat := bitField w (2 * pw + 128) 8

/-- `CMD.A`, bits `2*PW+127 : PW+128` (30_encoding.md R70). -/
def commandA (pw w : Nat) : Nat := bitField w (pw + 128) pw

/-- `CMD.B`, bits `PW+127 : 128` (30_encoding.md R70). -/
def commandB (pw w : Nat) : Nat := bitField w 128 pw

/-- `CMD.V`, bits `127 : 0` (30_encoding.md R70). -/
def commandV (w : Nat) : Value := BitVec.ofNat 128 (bitField w 0 128)

/-- Why a word is not a command. -/
inductive DecodeError
  /-- `OP` is none of 0x01 to 0x05 (30_encoding.md R74). -/
  | illegalOpcode (op : Nat)
  deriving DecidableEq, Repr

/-- The decoder: it compares `CMD.OP` only and takes every operand from its field as it stands
(30_encoding.md R72, R73). Every other opcode is illegal (R74). -/
def decode (pw w : Nat) : Except DecodeError Instr :=
  match commandOp pw w with
  | 1 => .ok (.rdbits (commandA pw w) (commandB pw w))
  | 2 => .ok (.wrbits (commandA pw w) (commandB pw w) (commandV w))
  | 3 => .ok (.get (commandA pw w))
  | 4 => .ok (.set (commandA pw w) (commandV w))
  | 5 => .ok .new
  | op => .error (.illegalOpcode op)

/-- Concatenation of the four fields, most significant first (30_encoding.md R70; 00_scope.md R7). -/
def commandWord (pw op a b : Nat) (v : Value) : Nat :=
  ((op * 2 ^ pw + a) * 2 ^ pw + b) * 2 ^ 128 + v.toNat

/-- The encoder: the words of 30_encoding.md R73 and R80, with zeros in the ignored fields. -/
def encode (pw : Nat) : Instr → Nat
  | .rdbits start stop => commandWord pw 1 start stop 0
  | .wrbits start stop value => commandWord pw 2 start stop value
  | .get f => commandWord pw 3 f 0 0
  | .set f t => commandWord pw 4 f 0 t
  | .new => commandWord pw 5 0 0 0

/-- The number of bits of the opcode table's words: `PW = 32` (30_encoding.md R70). -/
def tableWidth : Nat := commandWidth 32

/-- The command the decoder reads from an opcode-table word: `w` cut to `nbits` bits, every bit above
them zero. The table numbers the bits as the command word does, LSB-0 with `PW = 32`; a word of more
bits than a command word has is no command word (log 13). -/
def decodeTableWord (nbits w : Nat) : Option Instr :=
  if nbits ≤ tableWidth then (decode 32 (w % 2 ^ nbits)).toOption else none

end Sys2Proof
end

