-- ==== Sys2Proof/Machine/State.lean ====
section
/-! DEFINITION. The state of BRC as plain data, its reset value, and the reasons a step can stop.
The spec's state is `BUF` and `FLT` (10_state.md R20, R23); `inFlight` is the transfer in progress of
the handshake (30_encoding.md R79). The other fields are the model's own: they hold the arguments and
the results of the spec's `step : CFG -> (BUF, FLT) -> CMD -> (BUF', FLT') x RSP` (00_scope.md R9). -/

namespace Sys2Proof.Machine

/-- `BUF` as the list of its non-zero bytes, each with its index, indexes strictly rising. A byte that
is not listed reads as 0, the value reset gives it (10_state.md R30; log 5). -/
abbrev Memory := List Host.Cell

/-- The fatal errors, the values `FLT` can latch (10_state.md R23, 60_exceptions.md R191). -/
inductive FatalError
  | emptyRange
  | outOfBounds
  | unsupportedWidth
  | malformedRepr
  deriving DecidableEq, Repr

/-- The status of a response (60_exceptions.md R191): OK, a fatal error, the one recoverable error, or
one of the three refusals (R190). -/
inductive Status
  | ok
  | fatal (e : FatalError)
  | invalidDiscriminant
  | badOperand
  | illegalCommand
  | faulted
  deriving DecidableEq, Repr

/-- A response `(STATUS, DATA)` (30_encoding.md R76). -/
structure Response where
  status : Status
  data : Value
  deriving DecidableEq, Repr

/-- What the host does to the unit between two steps (00_scope.md R9): it presents a command word, or
it asserts reset (70_reset_and_hazards.md R230). -/
inductive HostInput
  | command (w : Nat)
  | reset
  deriving DecidableEq, Repr

structure State where
  /-- `CFG`, constant: no step changes it (00_scope.md R4; log 1). -/
  cfg : Config
  /-- `BUF` (10_state.md R20). -/
  buf : Memory
  /-- `FLT`, the fault latch (10_state.md R23). -/
  flt : Option FatalError
  /-- The command word accepted and not yet answered (30_encoding.md R79). -/
  inFlight : Option Nat
  /-- The model's own: the host's inputs still to come, first one first (log 2). -/
  host : List HostInput
  /-- The model's own: the responses produced so far, oldest first (70_reset_and_hazards.md R237; log 3). -/
  responses : List Response
  /-- The model's own: the mark that a BadOperand or IllegalCommand response was given, so that no
  claim is made about the run (60_exceptions.md R195, 92_eei_decisions.md D25; log 4). -/
  hostErr : Bool
  deriving DecidableEq, Repr

/-- A unit of configuration `c` right after reset (10_state.md R30): every byte of `BUF` 0, `FLT` none,
nothing in flight. -/
def State.resetOf (c : Config) : State where
  cfg := c
  buf := []
  flt := none
  inFlight := none
  host := []
  responses := []
  hostErr := false

/-- The machine right after reset, with the configuration of log 1. -/
def State.reset : State := State.resetOf Config.worked

/-- Why a step stops. No command stops the machine: every error of the spec is a response. -/
inductive Fault
  /-- Raised by `step` and `clockEdge` when the configuration is not well formed: "stuck: no unit
  exists, no step is defined" (93_implementation_defined.md U15; 00_scope.md R5). Safe (log 7). -/
  | noUnit
  deriving DecidableEq, Repr

/-- Why a step has no meaning. -/
inductive Refusal
  /-- Raised by `exec` for an instruction that is not modelled yet. Safe. No arm of `exec` raises it. -/
  | notModelled (mnemonic : String)
  deriving DecidableEq, Repr

/-- The outcome of a step of this machine. -/
abbrev StepOutcome := Host.Outcome State Fault Refusal

end Sys2Proof.Machine
end

