-- ==== Sys2Proof/Machine/Flags.lean ====
section
/-! DEFINITION. Status codes and the fault latch. BRC has no flag or condition code (10_state.md R26);
its one sticky status field is `FLT` (R27). -/

namespace Sys2Proof.Machine

/-- The code of a fatal error (60_exceptions.md R191; 10_state.md R23). -/
def fatalCode : FatalError → Byte
  | .emptyRange => 0x01
  | .outOfBounds => 0x02
  | .unsupportedWidth => 0x03
  | .malformedRepr => 0x04

/-- The 8-bit field `FLT[7:0]`: 0 for `none`, else the code latched (10_state.md R23, R27). -/
def fltByte : Option FatalError → Byte
  | none => 0x00
  | some e => fatalCode e

/-- `STATUS`, the code of a status (60_exceptions.md R191). -/
def statusCode : Status → Byte
  | .ok => 0x00
  | .fatal e => fatalCode e
  | .invalidDiscriminant => 0x05
  | .badOperand => 0x06
  | .illegalCommand => 0x07
  | .faulted => 0x08

/-- The response word: `RSP[135:128] = STATUS`, `RSP[127:0] = DATA` (30_encoding.md R76). -/
def responseWord (r : Response) : ResponseWord := (statusCode r.status ++ r.data).cast (by rfl)

/-- The status is one of those that mark the run as one about which no claim is made
(60_exceptions.md R195; 92_eei_decisions.md D25). -/
def isHostError : Status → Bool
  | .badOperand => true
  | .illegalCommand => true
  | .ok => false
  | .fatal _ => false
  | .invalidDiscriminant => false
  | .faulted => false

end Sys2Proof.Machine
end

