-- ==== Sys2Proof/Machine/Planner.lean ====
section
/-! DEFINITION. The configuration functions (42_configuration.md): width catalog, specifier registry,
enum derivation, layout planner, and `WF(CFG)`. They run at elaboration; none is a command. -/

namespace Sys2Proof.Machine

/-! ### Width catalog -/

/-- The width in bits. -/
def widthBits : NativeWidth → Nat
  | .w8 => 8
  | .w16 => 16
  | .w32 => 32
  | .w64 => 64
  | .w128 => 128

/-- `best_fit(w)`: the smallest native width that holds `w` bits (42_configuration.md R150). -/
def bestFit (w : Nat) : Except ConfigError NativeWidth :=
  if w ≤ 8 then .ok .w8
  else if w ≤ 16 then .ok .w16
  else if w ≤ 32 then .ok .w32
  else if w ≤ 64 then .ok .w64
  else if w ≤ 128 then .ok .w128
  else .error .unsupportedWidth

/-! ### Enum derivation -/

/-- `count` is a power of two, `count >= 1` (42_configuration.md R155). -/
def isPowerOfTwo (count : Nat) : Bool := decide (2 ^ Nat.log2 count = count)

/-- The literals of the variants as declared: a bare variant has its own index, whatever stands before
it, an explicit one its literal (42_configuration.md R157). `i` is the index of the list's head. -/
def declaredLiterals (i : Nat) : List Variant → List Int
  | [] => []
  | .bare :: vs => (i : Int) :: declaredLiterals (i + 1) vs
  | .explicit n :: vs => n :: declaredLiterals (i + 1) vs

/-- The list has no repeats (42_configuration.md R159). -/
def allDistinct {α : Type} [DecidableEq α] : List α → Bool
  | [] => true
  | x :: xs => decide (x ∉ xs) && allDistinct xs

/-- The discriminant is out of range: negative, whatever the variant count, or at least `2^BITS`, where
`BITS = log2(count)` is defined (42_configuration.md R158, R166). DESIGN CHOICE: for a count that is no
power of two `BITS` is not defined, and no upper bound applies (log 9). -/
def overflows (count : Nat) (d : Int) : Bool :=
  decide (d < 0) || (isPowerOfTwo count && decide ((2 : Int) ^ Nat.log2 count ≤ d))

/-- Every configuration error that applies to an enum declaration (42_configuration.md R155, R158,
R159): the document fixes no order among them (93_implementation_defined.md U7; log 9). -/
def enumErrors (variants : List Variant) : List ConfigError :=
  let lits := declaredLiterals 0 variants
  (if isPowerOfTwo variants.length then [] else [.nonPowerOfTwoVariantCount])
  ++ (if lits.any (overflows variants.length) then [.discriminantOverflow] else [])
  ++ (if allDistinct lits then [] else [.duplicateDiscriminant])

/-! ### Specifier registry -/

/-- A specifier of a kind and width; its container is `best_fit(BITS)` (42_configuration.md R152, R153,
R156). -/
def makeSpecifier (kind : Kind) (bits : Nat) : Except (List ConfigError) Specifier :=
  match bestFit bits with
  | .ok cwid => .ok { kind, bits, cwid }
  | .error e => .error [e]

/-- The enum derivation: a specifier, or every error that applies (42_configuration.md section 3, R155
to R159). -/
def deriveEnum (variants : List Variant) : Except (List ConfigError) Specifier :=
  match enumErrors variants with
  | [] =>
    makeSpecifier (.enum ((declaredLiterals 0 variants).map Int.toNat)) (Nat.log2 variants.length)
  | e :: es => .error (e :: es)

/-- The widest enum, in bits: `BITS <= 63`, since a variant list is indexed by a `usize`
(42_configuration.md R156). With it no field is wider than 64 bits (20_memory.md R45; R165; log 15). -/
def enumBits : Nat := 63

/-- `specifier_of(type)`, with every error that applies. Anything but `prim(0..64)`, `bool` or an enum
successfully derived is UnknownSpecifier; an enum whose derivation fails also has the errors of the
derivation (42_configuration.md R152 to R154, R166; log 9). -/
def specifierOf : TypeDecl → Except (List ConfigError) Specifier
  | .prim n => if n ≤ 64 then makeSpecifier (.prim n) n else .error [.unknownSpecifier]
  | .bool => makeSpecifier .bool 1
  | .enum variants =>
    match deriveEnum variants with
    | .ok s => if s.bits ≤ enumBits then .ok s else .error [.unknownSpecifier]
    | .error es => .error (es ++ [.unknownSpecifier])
  | .other => .error [.unknownSpecifier]

/-! ### Layout planner -/

/-- The scan of `plan`: each field gets the range that starts at the running offset, and the offset
advances by its width (42_configuration.md R162). -/
def placeFields (off : Nat) : List (FieldName × Specifier) → List Field
  | [] => []
  | (name, s) :: rest =>
    { name, kind := s.kind, bits := s.bits, cwid := s.cwid, off } :: placeFields (off + s.bits) rest

/-- `total_bits`: the sum of the field widths (42_configuration.md R162). -/
def totalBits (fields : List Field) : Nat := (fields.map Field.bits).sum

/-- The errors of one declared field: those of its type, or, where its type has a specifier, the
disagreement with its width assertion (42_configuration.md R164). -/
def fieldErrors (d : FieldDecl) : List ConfigError :=
  match specifierOf d.type with
  | .error es => es
  | .ok s =>
    match d.asserted with
    | none => []
    | some expected => if expected = s.bits then [] else [.widthMismatch d.name expected s.bits]

/-- The specifiers of the declared fields that have one, with the fields' names. -/
def resolveFields : List FieldDecl → List (FieldName × Specifier)
  | [] => []
  | d :: ds =>
    match specifierOf d.type with
    | .ok s => (d.name, s) :: resolveFields ds
    | .error _ => resolveFields ds

/-- Every field's type resolves to a specifier (42_configuration.md R154). -/
def allResolve (decls : List FieldDecl) : Bool :=
  decls.all fun d => (specifierOf d.type).isOk

/-- The field table planned from the declarations (42_configuration.md R162). -/
def planTable (decls : List FieldDecl) : List Field := placeFields 0 (resolveFields decls)

/-- Every configuration error that applies to a declaration list (42_configuration.md R166). Which of
them is reported is open (93_implementation_defined.md U7; log 9). The total is a question only once
every field has a width. -/
def configErrors (decls : List FieldDecl) : List ConfigError :=
  decls.flatMap fieldErrors ++
    (if allResolve decls ∧ totalBits (planTable decls) % 8 ≠ 0 then [.misalignedLayout] else [])

/-- Elaboration: the constants `(NB, F, FT)` computed from the declarations, or all the configuration
errors that apply (42_configuration.md R162, R163, R166). -/
def elaborate (pw : Nat) (decls : List FieldDecl) : Except (List ConfigError) Config :=
  match configErrors decls with
  | [] => .ok { pw, nb := totalBits (planTable decls) / 8, fields := planTable decls }
  | e :: es => .error (e :: es)

/-! ### Well-formed configurations -/

/-- The kind is admitted and has the width `bits` (42_configuration.md R167, conditions 1 and 2), an
enum at most `enumBits` (R156; 20_memory.md R45; log 15). -/
def kindAdmitted : Kind → Nat → Bool
  | .prim n, bits => decide (n ≤ 64) && decide (bits = n)
  | .bool, bits => decide (bits = 1)
  | .enum disc, bits =>
    decide (bits ≤ enumBits) && decide (disc.length = 2 ^ bits) && disc.all (fun d => decide (d < 2 ^ bits)) && allDistinct disc

/-- The field's kind, width and container agree (42_configuration.md R167, conditions 1 to 3). -/
def fieldAdmitted (f : Field) : Bool :=
  kindAdmitted f.kind f.bits &&
    match bestFit f.bits with
    | .ok cwid => decide (f.cwid = cwid)
    | .error _ => false

/-- The fields follow one another from position `off` with no gap (42_configuration.md R167,
condition 4). -/
def fieldsChained (off : Nat) : List Field → Bool
  | [] => true
  | f :: fs => decide (f.off = off) && fieldsChained (off + f.bits) fs

/-- `WF(CFG)` (42_configuration.md R167, conditions 1 to 6). -/
def configWf (c : Config) : Bool :=
  c.fields.all fieldAdmitted && fieldsChained 0 c.fields &&
    decide (8 * c.nb = totalBits c.fields) && decide (8 * c.nb < 2 ^ c.pw)

end Sys2Proof.Machine
end

