-- ==== Sys2Proof/Machine/Operands.lean ====
section
/-! DEFINITION. The operand forms: bit ranges with their check (40_codec.md R100), field indexes, and
Target values with their conversions (41_accessors.md R130 to R132). -/

namespace Sys2Proof.Machine

/-- `check_range(start, end)` on naturals: the first error whose condition holds, or `none` for `ok`
(40_codec.md R100). -/
def checkRange (nbits start stop : Nat) : Option FatalError :=
  if start ≥ stop then some .emptyRange
  else if stop > nbits then some .outOfBounds
  else if stop - start > 128 then some .unsupportedWidth
  else none

/-- `FT[f]`, absent when `f >= F` (41_accessors.md R133). -/
def fieldAt (c : Config) (f : Nat) : Option Field := c.fields[f]?

/-- One past the last position of a field's range `[off, off + BITS)` (20_memory.md R49). -/
def fieldStop (f : Field) : Nat := f.off + f.bits

/-- Why raw bits have no Target value (41_accessors.md R131). -/
inductive ReprError
  | malformedRepr
  | invalidDiscriminant
  deriving DecidableEq, Repr

/-- `from_container(kind, raw)` (41_accessors.md R131). For an enum the answer is the index of the
variant whose discriminant is `raw`; it is unique when discriminants are distinct (log 10). -/
def fromContainer : Kind → Nat → Except ReprError Nat
  | .prim _, raw => .ok raw
  | .bool, raw => if raw = 0 then .ok 0 else if raw = 1 then .ok 1 else .error .malformedRepr
  | .enum disc, raw =>
    if raw ∈ disc then .ok (disc.idxOf raw) else .error .invalidDiscriminant

/-- `to_container(kind, t)`; `none` is BadOperand, an operand that is no valid encoding of the field's
Target (41_accessors.md R130, R132). -/
def toContainer (kind : Kind) (cwid : NativeWidth) (t : Nat) : Option Nat :=
  match kind with
  | .prim _ => if t < 2 ^ widthBits cwid then some t else none
  | .bool => if t < 2 then some t else none
  | .enum disc => disc[t]?

end Sys2Proof.Machine
end

