-- ==== Sys2Proof/Machine/Ops.lean ====
section
/-! DEFINITION. The named operations: bytes and bits of `BUF`, the bit-by-bit codec `read_bits` and
`write_bits`, and the ways a command ends (`respond`, `raise`, `fail`, `refuse`) with reset beside
them. -/

namespace Sys2Proof.Machine

/-! ### Bytes of the buffer -/

/-- `BUF[a]`: the byte listed for `a`, else 0 (00_scope.md R8; log 5). -/
def Memory.byte : Memory → Nat → Byte
  | [], _ => 0#8
  | (k, b) :: m, a => if a = k then b else Memory.byte m a

/-- `BUF[a] <- b`, keeping the cells in canonical form: a zero byte is not listed. -/
def Memory.setByte : Memory → Nat → Byte → Memory
  | [], a, b => if b = 0#8 then [] else [(a, b)]
  | (k, c) :: m, a, b =>
    if a < k then (if b = 0#8 then (k, c) :: m else (a, b) :: (k, c) :: m)
    else if a = k then (if b = 0#8 then m else (a, b) :: m)
    else (k, c) :: Memory.setByte m a b

/-- The addresses rise strictly from `lo` up and no byte listed is zero. -/
def Memory.wfFrom (lo : Nat) : Memory → Bool
  | [] => true
  | (k, b) :: m => decide (lo ≤ k) && decide (b ≠ 0#8) && Memory.wfFrom (k + 1) m

/-- The canonical form: addresses strictly rising, and no entry equal to what an unlisted byte reads
as, so that equal buffers are equal data. -/
def Memory.wf (m : Memory) : Bool := Memory.wfFrom 0 m

/-- Every cell listed lies in the `nb` bytes of the buffer (10_state.md R20). -/
def Memory.inside (nb : Nat) (m : Memory) : Bool := m.all fun cell => decide (cell.1 < nb)

/-- `for i = 0 to NB-1: BUF[i] <- 0` (41_accessors.md R135). -/
def Memory.zeroFill : Nat → Memory → Memory
  | 0, m => m
  | n + 1, m => Memory.setByte (Memory.zeroFill n m) n 0#8

/-- The `NB` bytes in index order, the wire format (20_memory.md R58). -/
def Memory.wire (nb : Nat) (m : Memory) : List Byte := (List.range nb).map (Memory.byte m)

/-! ### Bits of the buffer -/

/-- `bit(BUF, p) = BUF[p div 8][7 - (p mod 8)]`: MSB-first within each byte (00_scope.md R6, R8). -/
def Memory.bit (m : Memory) (p : Nat) : Bool := (Memory.byte m (p / 8)).getLsbD (7 - p % 8)

/-- The byte with its bit of weight `2^i` replaced. -/
def withBit (b : Byte) (i : Nat) (v : Bool) : Byte :=
  if v then b ||| BitVec.twoPow 8 i else b &&& ~~~(BitVec.twoPow 8 i)

/-- The buffer with the bit at position `p` replaced and every other bit kept. -/
def Memory.setBit (m : Memory) (p : Nat) (v : Bool) : Memory :=
  Memory.setByte m (p / 8) (withBit (Memory.byte m (p / 8)) (7 - p % 8) v)

/-! ### The bit-by-bit codec -/

/-- The loop of `read_bits` over the `n` positions from `start` up: `v <- 2*v + bit(BUF, p)`
(40_codec.md R101). -/
def readRun (m : Memory) (start : Nat) : Nat → Nat
  | 0 => 0
  | n + 1 => 2 * readRun m start n + (Memory.bit m (start + n)).toNat

/-- `read_bits(BUF, start, end)` (40_codec.md R101). -/
def readBits (m : Memory) (start stop : Nat) : Nat := readRun m start (stop - start)

/-- The `n` positions from `start` up get the low `n` bits of `value`, the most significant at `start`:
the last position gets bit 0 (40_codec.md R102). -/
def writeRun (m : Memory) (start : Nat) : Nat → Nat → Memory
  | 0, _ => m
  | n + 1, value => Memory.setBit (writeRun m start n (value / 2)) (start + n) (value.testBit 0)

/-- `write_bits(BUF, start, end, value)` (40_codec.md R102). -/
def writeBits (m : Memory) (start stop value : Nat) : Memory := writeRun m start (stop - start) value

/-! ### How a command ends -/

/-- The response is produced (30_encoding.md R76); the model's mark is set by the statuses R195 names
(60_exceptions.md R195; log 4). -/
def emit (status : Status) (data : Value) (s : State) : State :=
  { s with
    responses := s.responses ++ [{ status, data }]
    hostErr := s.hostErr || isHostError status }

/-- `BUF <- m`. -/
def setBuf (m : Memory) (s : State) : State := { s with buf := m }

/-- `FLT <- code(e)` (60_exceptions.md R193). -/
def latch (e : FatalError) (s : State) : State := { s with flt := some e }

/-- `respond v`: the command completed (00_scope.md R8). `v < 2^128` for every command of the spec. -/
def respond (v : Nat) (s : State) : StepOutcome := .next (emit .ok (BitVec.ofNat 128 v) s)

/-- `raise E`, a fatal error: no byte of `BUF` changes, `FLT` latches the error and the response is its
code (60_exceptions.md R193). This is the whole of taking an exception on BRC; there is no return from
one, only reset (R196). -/
def raise (e : FatalError) (s : State) : StepOutcome :=
  .next (emit (.fatal e) 0#128 (latch e s))

/-- `fail InvalidDiscriminant`, the recoverable error: nothing changes (60_exceptions.md R194). -/
def failInvalidDiscriminant (s : State) : StepOutcome := .next (emit .invalidDiscriminant 0#128 s)

/-- `refuse BadOperand`: nothing of the unit changes (60_exceptions.md R195). -/
def refuseBadOperand (s : State) : StepOutcome := .next (emit .badOperand 0#128 s)

/-- `refuse IllegalCommand`: nothing of the unit changes (30_encoding.md R74; 60_exceptions.md R195). -/
def refuseIllegalCommand (s : State) : StepOutcome := .next (emit .illegalCommand 0#128 s)

/-- `refuse Faulted(FLT)`: nothing changes, `DATA[7:0] = FLT` (60_exceptions.md R196). -/
def refuseFaulted (e : FatalError) (s : State) : StepOutcome :=
  .next (emit .faulted (BitVec.setWidth 128 (fltByte (some e))) s)

/-- The first test of every command: a unit that has latched a fatal error refuses it
(60_exceptions.md R197, test 1). -/
def unlessFaulted (s : State) (body : StepOutcome) : StepOutcome :=
  match s.flt with
  | some e => refuseFaulted e s
  | none => body

/-- A word whose opcode is none of the five (30_encoding.md R74; 60_exceptions.md R197, test 2). -/
def illegalCommand (s : State) : StepOutcome := unlessFaulted s (refuseIllegalCommand s)

/-- Reset: `BUF` zero, `FLT` none, a command in flight is dropped with no response
(70_reset_and_hazards.md R230). The configuration is constant (10_state.md R30). -/
def unitReset (s : State) : State := { s with buf := [], flt := none, inFlight := none }

end Sys2Proof.Machine
end

