-- ==== Sys2Proof/Machine/Accessors.lean ====
section
/-! DEFINITION. The field accessors GET and SET, and NEW (41_accessors.md section 3). -/

namespace Sys2Proof.Machine

/-- GET (41_accessors.md R133). -/
def execGet (f : Nat) (s : State) : StepOutcome :=
  unlessFaulted s <|
    match fieldAt s.cfg f with
    | none => refuseBadOperand s
    | some fld =>
      match checkRange s.cfg.nbits fld.off (fieldStop fld) with
      | some e => raise e s
      | none =>
        match fromContainer fld.kind (readBits s.buf fld.off (fieldStop fld)) with
        | .ok t => respond t s
        | .error .malformedRepr => raise .malformedRepr s
        | .error .invalidDiscriminant => failInvalidDiscriminant s

/-- SET (41_accessors.md R134). The operand check comes before the range check. -/
def execSet (f : Nat) (t : Value) (s : State) : StepOutcome :=
  unlessFaulted s <|
    match fieldAt s.cfg f with
    | none => refuseBadOperand s
    | some fld =>
      match toContainer fld.kind fld.cwid t.toNat with
      | none => refuseBadOperand s
      | some c =>
        match checkRange s.cfg.nbits fld.off (fieldStop fld) with
        | some e => raise e s
        | none => respond 0 (setBuf (writeBits s.buf fld.off (fieldStop fld) c) s)

/-- NEW: zero-fill; `FLT` is not touched (41_accessors.md R135). -/
def execNew (s : State) : StepOutcome :=
  unlessFaulted s (respond 0 (setBuf (Memory.zeroFill s.cfg.nb s.buf) s))

end Sys2Proof.Machine
end

