-- ==== Sys2Proof/Machine/Codec.lean ====
section
/-! DEFINITION. The raw codec commands RDBITS and WRBITS (40_codec.md section 3). -/

namespace Sys2Proof.Machine

/-- RDBITS (40_codec.md R103). -/
def execRdbits (start stop : Nat) (s : State) : StepOutcome :=
  unlessFaulted s <|
    match checkRange s.cfg.nbits start stop with
    | some e => raise e s
    | none => respond (readBits s.buf start stop) s

/-- WRBITS (40_codec.md R104). -/
def execWrbits (start stop : Nat) (value : Value) (s : State) : StepOutcome :=
  unlessFaulted s <|
    match checkRange s.cfg.nbits start stop with
    | some e => raise e s
    | none => respond 0 (setBuf (writeBits s.buf start stop value.toNat) s)

end Sys2Proof.Machine
end

