-- ==== Sys2Proof/Machine/Dispatch.lean ====
section
/-! DEFINITION. One arm per command, each a direct call of its meaning. -/

namespace Sys2Proof.Machine

def exec (i : Instr) (s : State) : Host.Outcome State Fault Refusal :=
  match i with
  | .rdbits start stop => Sys2Proof.Machine.execRdbits start stop s
  | .wrbits start stop value => Sys2Proof.Machine.execWrbits start stop value s
  | .get f => Sys2Proof.Machine.execGet f s
  | .set f t => Sys2Proof.Machine.execSet f t s
  | .new => Sys2Proof.Machine.execNew s

end Sys2Proof.Machine
end

