-- ==== Sys2Proof/Machine/Sequencer.lean ====
section
/-! DEFINITION. One transaction (00_scope.md R9): a command word is decoded and executed, and produces
one response; and which of the host's inputs a step takes. -/

namespace Sys2Proof.Machine

/-- One command word is consumed: the command it decodes to is executed, and a word with any other
opcode is IllegalCommand (00_scope.md R9; 30_encoding.md R73, R74). -/
def runCommand (w : Nat) (s : State) : StepOutcome :=
  match decode s.cfg.pw w with
  | .ok i => exec i s
  | .error _ => illegalCommand s

/-- What happens next at the unit (log 12). Reset works in every state and drops a command in flight
(70_reset_and_hazards.md R230). A command accepted earlier is answered before the next one is accepted
(30_encoding.md R79). With nothing from the host and nothing in flight the unit is idle
(60_exceptions.md R205). -/
def advance (s : State) : StepOutcome :=
  match s.host with
  | .reset :: rest => .next (unitReset { s with host := rest })
  | .command w :: rest =>
    match s.inFlight with
    | some v => runCommand v { s with inFlight := none }
    | none => runCommand w { s with host := rest }
  | [] =>
    match s.inFlight with
    | some v => runCommand v { s with inFlight := none }
    | none => .next s

/-- A unit exists only for a well-formed configuration (00_scope.md R5; 70_reset_and_hazards.md R232;
93_implementation_defined.md U15; log 7). -/
def ifUnitExists {α : Type} (c : Config) (body : Host.Outcome α Fault Refusal) :
    Host.Outcome α Fault Refusal :=
  if configWf c then body else .fault .noUnit

/-- The host presents `w` as its next command to a unit with nothing in flight. -/
def present (w : Nat) (s : State) : State :=
  { s with inFlight := none, host := .command w :: s.host }

end Sys2Proof.Machine
end

