-- ==== Sys2Proof/Machine/Step.lean ====
section
/-! DEFINITION. One step of BRC, and where a test places a command word. -/

namespace Sys2Proof.Machine

/-- One step: one command consumed and one response produced, or a reset, or nothing from the host
(00_scope.md R9; 70_reset_and_hazards.md R230). -/
def step (s : State) : Host.Outcome State Fault Refusal :=
  ifUnitExists s.cfg (advance s)

/-- `s` with the command word `w`, cut to `nbits` bits, as what the host presents next to a unit with
nothing in flight (log 2, log 13). BRC fetches nothing (10_state.md R25). -/
def State.withFetchWord (s : State) (nbits w : Nat) : State := present (w % 2 ^ nbits) s

end Sys2Proof.Machine
end

