-- ==== Sys2Proof/Machine/Assembler.lean ====
section
/-! DEFINITION. The textual form of commands and the pseudo-commands (30_encoding.md R80, R81). What the
text rules leave open is fixed in log 11. -/

namespace Sys2Proof.Machine

/-- One line of command text: the five commands of 30_encoding.md R80 and the pseudo-commands of R81. -/
inductive Source
  | rdbits (start stop : Nat)
  | wrbits (start stop value : Nat)
  | get (f : Nat)
  | set (f value : Nat)
  | new
  | getName (name : FieldName)
  | setName (name : FieldName) (value : Nat)
  | rdbyte (i : Nat)
  | wrbyte (i v : Nat)
  | rdbit (p : Nat)
  | wrbit (p v : Nat)
  deriving DecidableEq, Repr

/-- Why a line is no command text. -/
inductive AsmError
  | unknownMnemonic
  | badOperands
  /-- No field has the name. -/
  | unknownField
  /-- Several fields have the name (log 11). -/
  | ambiguousField
  /-- An operand does not fit its field of the command word (30_encoding.md R71). -/
  | operandTooWide
  deriving DecidableEq, Repr

/-! ### Pseudo-commands and encoding -/

/-- The index of the field named `name` (30_encoding.md R81). -/
def fieldIndex (c : Config) (name : FieldName) : Except AsmError Nat :=
  match (c.fields.map Field.name).count name with
  | 0 => .error .unknownField
  | 1 => .ok ((c.fields.map Field.name).idxOf name)
  | _ => .error .ambiguousField

/-- A value operand fits the 128 bits of `V` (30_encoding.md R71). -/
def asValue (v : Nat) : Except AsmError Value :=
  if v < 2 ^ 128 then .ok (BitVec.ofNat 128 v) else .error .operandTooWide

/-- The command a line stands for; each pseudo-command is an exact abbreviation of one command
(30_encoding.md R80, R81). -/
def toInstr (c : Config) : Source → Except AsmError Instr
  | .rdbits a b => .ok (.rdbits a b)
  | .wrbits a b v => (asValue v).map (.wrbits a b)
  | .get f => .ok (.get f)
  | .set f v => (asValue v).map (.set f)
  | .new => .ok .new
  | .getName name => (fieldIndex c name).map .get
  | .setName name v =>
    match fieldIndex c name with
    | .ok f => (asValue v).map (.set f)
    | .error e => .error e
  | .rdbyte i => .ok (.rdbits (8 * i) (8 * i + 8))
  | .wrbyte i v => (asValue v).map (.wrbits (8 * i) (8 * i + 8))
  | .rdbit p => .ok (.rdbits p (p + 1))
  | .wrbit p v => (asValue v).map (.wrbits p (p + 1))

/-- The command word of a line: operands checked against the fields of the command word, ignored fields
zero (30_encoding.md R75, R80). -/
def sourceWord (c : Config) (src : Source) : Except AsmError Nat :=
  match toInstr c src with
  | .error e => .error e
  | .ok i => if i.wellFormed c.pw then .ok (encode c.pw i) else .error .operandTooWide

/-! ### Text -/

/-- The value of a digit below `base`. -/
def digitValue (base : Nat) (ch : Char) : Option Nat :=
  let n := ch.toNat
  let d :=
    if '0'.toNat ≤ n ∧ n ≤ '9'.toNat then n - '0'.toNat
    else if 'a'.toNat ≤ n ∧ n ≤ 'f'.toNat then n - 'a'.toNat + 10
    else if 'A'.toNat ≤ n ∧ n ≤ 'F'.toNat then n - 'A'.toNat + 10
    else base
  if d < base then some d else none

/-- Digits after the first, each with an optional `_` before it (log 11). -/
def moreDigits (base acc : Nat) : List Char → Option Nat
  | [] => some acc
  | ['_'] => none
  | '_' :: c :: cs =>
    match digitValue base c with
    | some d => moreDigits base (base * acc + d) cs
    | none => none
  | c :: cs =>
    match digitValue base c with
    | some d => moreDigits base (base * acc + d) cs
    | none => none

/-- A number starts with a digit. -/
def digits (base : Nat) : List Char → Option Nat
  | [] => none
  | c :: cs =>
    match digitValue base c with
    | some d => moreDigits base d cs
    | none => none

/-- A number in decimal, `0x` hexadecimal or `0b` binary (30_encoding.md R80). -/
def parseNumber : List Char → Option Nat
  | '0' :: 'x' :: cs => digits 16 cs
  | '0' :: 'b' :: cs => digits 2 cs
  | cs => digits 10 cs

/-- White space between the parts of a line. -/
def isBlank (c : Char) : Bool := decide (c = ' ') || decide (c = '\t') || decide (c = '\r')

/-- The text without the white space at both ends. -/
def trim (cs : List Char) : List Char :=
  ((cs.dropWhile isBlank).reverse.dropWhile isBlank).reverse

/-- The parts between separators. -/
def splitOn (sep : Char) : List Char → List (List Char)
  | [] => [[]]
  | c :: cs =>
    match splitOn sep cs with
    | [] => [[]]
    | part :: parts => if c = sep then [] :: part :: parts else (c :: part) :: parts

/-- `;` starts a comment (30_encoding.md R80). -/
def stripComment (cs : List Char) : List Char := cs.takeWhile fun c => decide (c ≠ ';')

/-- The mnemonics of 30_encoding.md R80 and R81. -/
inductive Mnemonic
  | rdbits
  | wrbits
  | get
  | set
  | new
  | rdbyte
  | wrbyte
  | rdbit
  | wrbit
  deriving DecidableEq, Repr

/-- The spelling of a mnemonic, in upper case. -/
def mnemonicText : Mnemonic → List Char
  | .rdbits => "RDBITS".toList
  | .wrbits => "WRBITS".toList
  | .get => "GET".toList
  | .set => "SET".toList
  | .new => "NEW".toList
  | .rdbyte => "RDBYTE".toList
  | .wrbyte => "WRBYTE".toList
  | .rdbit => "RDBIT".toList
  | .wrbit => "WRBIT".toList

/-- Every mnemonic. -/
def allMnemonics : List Mnemonic :=
  [.rdbits, .wrbits, .get, .set, .new, .rdbyte, .wrbyte, .rdbit, .wrbit]

/-- A mnemonic in upper or lower case (30_encoding.md R80; log 11). -/
def parseMnemonic (cs : List Char) : Option Mnemonic :=
  allMnemonics.find? fun m =>
    decide (cs = mnemonicText m) || decide (cs = (mnemonicText m).map Char.toLower)

/-- An operand that can name a field: the text is not empty, holds no white space and does not start
with a decimal digit (log 11). -/
def parseName (cs : List Char) : Option FieldName :=
  match cs with
  | [] => none
  | c :: _ => if (digitValue 10 c).isSome || cs.any isBlank then none else some cs

/-- The source line of a mnemonic and its operand texts. -/
def parseOperands (m : Mnemonic) (ops : List (List Char)) : Option Source :=
  match m, ops with
  | .rdbits, [a, b] => do return .rdbits (← parseNumber a) (← parseNumber b)
  | .wrbits, [a, b, v] => do return .wrbits (← parseNumber a) (← parseNumber b) (← parseNumber v)
  | .get, [f] =>
    match parseName f with
    | some name => some (.getName name)
    | none => do return .get (← parseNumber f)
  | .set, [f, v] =>
    match parseName f with
    | some name => do return .setName name (← parseNumber v)
    | none => do return .set (← parseNumber f) (← parseNumber v)
  | .new, [] => some .new
  | .rdbyte, [i] => do return .rdbyte (← parseNumber i)
  | .wrbyte, [i, v] => do return .wrbyte (← parseNumber i) (← parseNumber v)
  | .rdbit, [p] => do return .rdbit (← parseNumber p)
  | .wrbit, [p, v] => do return .wrbit (← parseNumber p) (← parseNumber v)
  | _, _ => none

/-- The operand texts, separated by commas; a line with nothing after its mnemonic has none. -/
def operandTexts (cs : List Char) : List (List Char) :=
  match trim cs with
  | [] => []
  | rest => (splitOn ',' rest).map trim

/-- One line: a command, or `none` for a line with nothing but white space and a comment
(30_encoding.md R80). -/
def parseLine (line : List Char) : Except AsmError (Option Source) :=
  match trim (stripComment line) with
  | [] => .ok none
  | body =>
    match parseMnemonic (body.takeWhile fun c => !isBlank c) with
    | none => .error .unknownMnemonic
    | some m =>
      match parseOperands m (operandTexts (body.dropWhile fun c => !isBlank c)) with
      | some src => .ok (some src)
      | none => .error .badOperands

/-- The command words of a list of lines, one command per line (30_encoding.md R80). -/
def assembleLines (c : Config) : List (List Char) → Except AsmError (List Nat)
  | [] => .ok []
  | line :: lines =>
    match parseLine line, assembleLines c lines with
    | .ok none, rest => rest
    | .ok (some src), .ok words =>
      match sourceWord c src with
      | .ok w => .ok (w :: words)
      | .error e => .error e
    | .ok (some _), .error e => .error e
    | .error e, _ => .error e

/-- The command words of a text. -/
def assemble (c : Config) (text : List Char) : Except AsmError (List Nat) :=
  assembleLines c (splitOn '\n' text)

end Sys2Proof.Machine
end

