-- ==== Sys2Proof/Machine/Datapath.lean ====
section
/-! DEFINITION. The offset/mask/shift datapath (40_codec.md section 5): the byte-chunked form and the
window form of `read_bits` and `write_bits`. The commands use the bit-by-bit form, which is the
normative one (R101, R102); that these forms equal it is stated, not assumed. -/

namespace Sys2Proof.Machine

/-! ### Offsets (40_codec.md R109) -/

/-- Index of the first byte the range overlaps. -/
def firstByte (start : Nat) : Nat := start / 8

/-- Index of the last byte the range overlaps. -/
def lastByte (stop : Nat) : Nat := (stop - 1) / 8

/-- Head skip: bits of the first byte before the range, 0..7. -/
def headSkip (start : Nat) : Nat := start % 8

/-- Tail extent: bits of the last byte up to the range's end, 1..8. -/
def tailExtent (stop : Nat) : Nat := (stop - 1) % 8 + 1

/-- Number of bytes in the window, 1..17. -/
def windowBytes (start stop : Nat) : Nat := lastByte stop - firstByte start + 1

/-! ### Per-byte window (40_codec.md R110) -/

/-- First covered index of byte `b`, MSB-first. -/
def coverLo (start b : Nat) : Nat := if b = firstByte start then headSkip start else 0

/-- One past the last covered index of byte `b`. -/
def coverHi (stop b : Nat) : Nat := if b = lastByte stop then tailExtent stop else 8

/-- Covered bits in byte `b`, 1..8. -/
def coverBits (start stop b : Nat) : Nat := coverHi stop b - coverLo start b

/-- Right shift that brings the covered bits of byte `b` to the bottom. -/
def coverShift (stop b : Nat) : Nat := 8 - coverHi stop b

/-- 8-bit mask of the covered bits of byte `b`. -/
def coverMask (start stop b : Nat) : Nat := (2 ^ coverBits start stop b - 1) <<< coverShift stop b

/-! ### Chunked read (40_codec.md R111) -/

/-- The covered bits of byte `b`. -/
def readChunk (m : Memory) (start stop b : Nat) : Nat :=
  ((Memory.byte m b).toNat >>> coverShift stop b) &&& (2 ^ coverBits start stop b - 1)

/-- The accumulator after the first `j` bytes of the window. -/
def chunkedAcc (m : Memory) (start stop : Nat) : Nat → Nat
  | 0 => 0
  | j + 1 =>
    let b := firstByte start + j
    (chunkedAcc m start stop j <<< coverBits start stop b) ||| readChunk m start stop b

/-- The chunked read. -/
def chunkedRead (m : Memory) (start stop : Nat) : Nat :=
  chunkedAcc m start stop (windowBytes start stop)

/-! ### Chunked write (40_codec.md R112) -/

/-- Read-mask-write of one byte: the covered bits replaced by the chunk, the others kept. -/
def maskedByte (old : Byte) (mask chunk shift : Nat) : Byte :=
  BitVec.ofNat 8 ((old.toNat &&& (255 - mask)) ||| (chunk <<< shift))

/-- The loop over `count` bytes from byte `b` up, with `rem` value bits still to place. -/
def chunkedLoop (start stop value : Nat) : (count b rem : Nat) → Memory → Memory
  | 0, _, _, m => m
  | count + 1, b, rem, m =>
    let rem' := rem - coverBits start stop b
    let chunk := (value >>> rem') &&& (2 ^ coverBits start stop b - 1)
    chunkedLoop start stop value count (b + 1) rem'
      (Memory.setByte m b
        (maskedByte (Memory.byte m b) (coverMask start stop b) chunk (coverShift stop b)))

/-- The chunked write. -/
def chunkedWrite (m : Memory) (start stop value : Nat) : Memory :=
  chunkedLoop start stop value (windowBytes start stop) (firstByte start) (stop - start) m

/-! ### Window form (40_codec.md R113) -/

/-- `k` bytes from byte `first` up, concatenated big-endian. -/
def windowValue (m : Memory) (first : Nat) : Nat → Nat
  | 0 => 0
  | k + 1 => windowValue m first k * 256 + (Memory.byte m (first + k)).toNat

/-- The number of window bits after the range, `s = 8 - te`. -/
def windowShift (stop : Nat) : Nat := 8 - tailExtent stop

/-- The read as one wide shift and mask. -/
def windowRead (m : Memory) (start stop : Nat) : Nat :=
  (windowValue m (firstByte start) (windowBytes start stop) >>> windowShift stop) % 2 ^ (stop - start)

/-- The wide mask `M`. -/
def windowMask (start stop : Nat) : Nat := (2 ^ (stop - start) - 1) <<< windowShift stop

/-- `W'`, the window's bytes after the write. -/
def windowUpdate (m : Memory) (start stop value : Nat) : Nat :=
  (windowValue m (firstByte start) (windowBytes start stop) &&&
      (2 ^ (8 * windowBytes start stop) - 1 - windowMask start stop)) |||
    ((value % 2 ^ (stop - start)) <<< windowShift stop)

/-- The buffer with the `k` bytes from byte `first` up replaced by the `k` low bytes of `x`, big-endian. -/
def putBytes (m : Memory) (first x : Nat) : Nat → Memory
  | 0 => m
  | k + 1 => Memory.setByte (putBytes m first (x / 256) k) (first + k) (BitVec.ofNat 8 x)

/-- The write as one wide shift and mask. -/
def windowWrite (m : Memory) (start stop value : Nat) : Memory :=
  putBytes m (firstByte start) (windowUpdate m start stop value) (windowBytes start stop)

end Sys2Proof.Machine
end

