-- ==== Sys2Proof/Machine/Ports.lean ====
section
/-! DEFINITION. The ports and the handshake at rising clock edges (30_encoding.md R78, R79;
70_reset_and_hazards.md R230). The number of cycles from acceptance to response is not specified: an
argument of the edge says whether the response comes at it, so a claim over every value of that
argument is a claim over every latency (R236; log 8). -/

namespace Sys2Proof.Machine

/-- The input pins sampled at a rising edge of `clk`: `rst`, `cmd_valid`, `cmd` (30_encoding.md R78). -/
structure PinsIn where
  rst : Bool
  cmdValid : Bool
  cmd : Nat
  deriving DecidableEq, Repr

/-- The state after an edge, and the response channel in the cycle that begins there: `rsp` is the
response word when `rsp_valid` is 1 and absent when it is 0 (30_encoding.md R78). -/
structure EdgeResult where
  state : State
  rsp : Option ResponseWord
  deriving DecidableEq, Repr

/-- `cmd_ready` is 0 from acceptance until the response has been produced (30_encoding.md R79).
DESIGN CHOICE (log 19): it is 1 in every other cycle, the cycle in which `rsp_valid` is 1 and every idle
cycle among them, which R79 and 70_reset_and_hazards.md R234 leave open. -/
def cmdReady (s : State) : Bool := s.inFlight.isNone

/-- The word on the `cmd` port, which has as many wires as a command word has bits. -/
def busWord (c : Config) (cmd : Nat) : Nat := cmd % 2 ^ commandWidth c.pw

/-- The edge at which a command in flight is answered: its state change and its response word, on `rsp`
in the cycle that begins there. DESIGN CHOICE: the whole state change happens at this edge (log 8), and
nothing is in flight after it, so `cmd_ready` is 1 in the response cycle and the edge that ends it can
accept the next command (log 19). -/
def answer (s : State) (w : Nat) : Host.Outcome EdgeResult Fault Refusal :=
  match runCommand w { s with inFlight := none } with
  | .next t => .next { state := t, rsp := t.responses.getLast?.map responseWord }
  | .fault r => .fault r
  | .refused r => .refused r

/-- One rising clock edge. Reset wins and accepts nothing (70_reset_and_hazards.md R230). A command is
accepted when `cmd_valid` and `cmd_ready` are both 1 and `rst` is 0; for it the response is raised for
one cycle at a later edge, the one where `done` holds (30_encoding.md R79). -/
def edgeBody (s : State) (p : PinsIn) (done : Bool) : Host.Outcome EdgeResult Fault Refusal :=
  if p.rst then .next { state := unitReset s, rsp := none }
  else
    match s.inFlight with
    | some w => if done then answer s w else .next { state := s, rsp := none }
    | none =>
      if p.cmdValid then
        .next { state := { s with inFlight := some (busWord s.cfg p.cmd) }, rsp := none }
      else .next { state := s, rsp := none }

/-- One rising clock edge of a unit that exists. -/
def clockEdge (s : State) (p : PinsIn) (done : Bool) : Host.Outcome EdgeResult Fault Refusal :=
  ifUnitExists s.cfg (edgeBody s p done)

/-- What a sequence of edges yields: the last state and the response words raised, in order. -/
structure EdgeRun where
  state : State
  responses : List ResponseWord
  deriving DecidableEq, Repr

/-- The edges in order, each with its pins and whether a command in flight is answered at it. -/
def runEdges (s : State) : List (PinsIn × Bool) → Host.Outcome EdgeRun Fault Refusal
  | [] => .next { state := s, responses := [] }
  | (p, done) :: rest =>
    match clockEdge s p done with
    | .next r =>
      match runEdges r.state rest with
      | .next t => .next { t with responses := r.rsp.toList ++ t.responses }
      | .fault e => .fault e
      | .refused e => .refused e
    | .fault e => .fault e
    | .refused e => .refused e

end Sys2Proof.Machine
end

