-- ==== Sys2Proof/Safety.lean ====
section
/-! DEFINITION. What claims are stated in: the invariant of the machine, runs of commands, and the runs
about which a claim is made (70_reset_and_hazards.md R237; 60_exceptions.md R195). -/

namespace Sys2Proof.Safety

open Sys2Proof.Machine

/-- The buffer is in canonical form and has no byte outside its `nb` bytes (10_state.md R20). -/
def bufferInv (nb : Nat) (m : Memory) : Prop := Memory.wf m = true ∧ Memory.inside nb m = true

/-- The invariant of a unit: its configuration is well formed and its buffer is one of `NB` bytes. It
holds of every assignment of byte values to the buffer (10_state.md R21). -/
def Inv (s : State) : Prop := configWf s.cfg = true ∧ bufferInv s.cfg.nb s.buf

/-- The commands of a run, each stepped by the step of 00_scope.md R9 (70_reset_and_hazards.md R237). -/
def runCommands (s : State) : List Nat → StepOutcome
  | [] => .next s
  | w :: ws =>
    match runCommand w s with
    | .next t => runCommands t ws
    | .fault r => .fault r
    | .refused r => .refused r

/-- A run that ends in this state has hit a fatal error and is failed as a whole
(70_reset_and_hazards.md R237). -/
def failed (s : State) : Bool := s.flt.isSome

/-- A run that ends in this state holds a BadOperand or IllegalCommand response: no claim is made about
it (60_exceptions.md R195). -/
def noClaim (s : State) : Bool := s.hostErr

/-- A run that ends in this state is one claims are made about. -/
def clean (s : State) : Bool := !failed s && !noClaim s

/-- The bit that a command word writes at position `p` when it is executed in state `s`: absent when
the word is no write, ends in an error, or has a range that does not hold `p` (20_memory.md R51,
R47). -/
def writtenBit (s : State) (w p : Nat) : Option Bool :=
  if s.flt ≠ none then none
  else
    match decode s.cfg.pw w with
    | .ok (.wrbits start stop value) =>
      if checkRange s.cfg.nbits start stop = none ∧ start ≤ p ∧ p < stop then
        some (value.getLsbD (stop - 1 - p))
      else none
    | .ok (.set f t) =>
      match s.cfg.fields[f]? with
      | some fld =>
        match toContainer fld.kind fld.cwid t.toNat with
        | some c =>
          if checkRange s.cfg.nbits fld.off (fieldStop fld) = none ∧ fld.off ≤ p ∧ p < fieldStop fld
          then some (c.testBit (fieldStop fld - 1 - p))
          else none
        | none => none
      | none => none
    | .ok .new => if p < s.cfg.nbits then some false else none
    | .ok (.rdbits _ _) => none
    | .ok (.get _) => none
    | .error _ => none

/-- The bit written at position `p` by the latest of the command words that writes one there, else
`before` (20_memory.md R51 (a)). -/
def latestBit (p : Nat) (s : State) (before : Bool) : List Nat → Bool
  | [] => before
  | w :: ws =>
    match runCommand w s with
    | .next t => latestBit p t ((writtenBit s w p).getD before) ws
    | .fault _ => before
    | .refused _ => before

/-! ### Words in which claims state the spec's rules -/

/-- The sum of R101: the bit at position `p` of `[start, stop)` weighs `2^(stop-1-p)`
(40_codec.md R101). -/
def weightedSum (m : Memory) (start stop : Nat) : Nat :=
  ∑ p ∈ Finset.Ico start stop, (Memory.bit m p).toNat * 2 ^ (stop - 1 - p)

/-- `t` is a valid Target encoding of the field's kind (41_accessors.md R130). -/
def validTarget (kind : Kind) (cwid : NativeWidth) (t : Nat) : Prop :=
  match kind with
  | .prim _ => t < 2 ^ widthBits cwid
  | .bool => t < 2
  | .enum disc => t < disc.length

/-- `t` is a Target value a field of this kind and width can hold without truncation
(41_accessors.md R136). -/
def representable (kind : Kind) (t : Nat) : Prop :=
  match kind with
  | .prim n => t < 2 ^ n
  | .bool => t < 2
  | .enum disc => t < disc.length

/-- `raw` are the field bits that stand for the Target value `t` (41_accessors.md R131). -/
def standsFor (kind : Kind) (raw t : Nat) : Prop :=
  match kind with
  | .prim _ => t = raw
  | .bool => t = raw
  | .enum disc => disc[t]? = some raw

/-- `c` is the container value of the Target value `t` (41_accessors.md R132). -/
def containerOf (kind : Kind) (t c : Nat) : Prop :=
  match kind with
  | .prim _ => c = t
  | .bool => c = t
  | .enum disc => disc[t]? = some c

/-- The state after a response `(x, d)` that changes nothing else of the unit; a BadOperand or
IllegalCommand sets the model's mark (60_exceptions.md R194, R195; log 4). -/
def answered (x : Status) (d : Value) (s : State) : State :=
  { s with
    responses := s.responses ++ [{ status := x, data := d }]
    hostErr := s.hostErr || decide (x = .badOperand) || decide (x = .illegalCommand) }

/-- The state after a fatal error: the code latched, the response `(code(e), 0)`, nothing else changed
(60_exceptions.md R193). -/
def raised (e : FatalError) (s : State) : State :=
  { s with flt := some e, responses := s.responses ++ [{ status := .fatal e, data := 0 }] }

/-- The range a command of this opcode accesses: its operands, or the range of the field it names. -/
def accessedRange (c : Config) (op a b : Nat) : Nat × Nat :=
  if op = 1 ∨ op = 2 then (a, b)
  else match c.fields[a]? with
    | some fld => (fld.off, fld.off + fld.bits)
    | none => (0, 0)

/-- The eight tests of R197 in their order: for each, whether the command fails it in this state and
the status it then ends with (60_exceptions.md R197). -/
def orderedTests (s : State) (w : Nat) : List (Prop × Status) :=
  let op := commandOp s.cfg.pw w
  let a := commandA s.cfg.pw w
  let range := accessedRange s.cfg op a (commandB s.cfg.pw w)
  let accesses := 1 ≤ op ∧ op ≤ 4
  let kindIs (k : Kind → Prop) := ∃ fld, s.cfg.fields[a]? = some fld ∧ k fld.kind
  let raw := weightedSum s.buf range.1 range.2
  [(s.flt ≠ none, .faulted),
   (¬(1 ≤ op ∧ op ≤ 5), .illegalCommand),
   ((op = 3 ∨ op = 4) ∧ s.cfg.fields.length ≤ a, .badOperand),
   (op = 4 ∧ ∀ fld, s.cfg.fields[a]? = some fld →
      ¬validTarget fld.kind fld.cwid (commandV w).toNat, .badOperand),
   (accesses ∧ range.1 ≥ range.2, .fatal .emptyRange),
   (accesses ∧ range.2 > s.cfg.nbits, .fatal .outOfBounds),
   (accesses ∧ range.2 - range.1 > 128, .fatal .unsupportedWidth),
   (op = 3 ∧ kindIs (fun k => k = .bool ∧ raw ≥ 2), .fatal .malformedRepr),
   (op = 3 ∧ kindIs (fun k => ∃ disc, k = .enum disc ∧ raw ∉ disc), .invalidDiscriminant)]

/-- The command ends with status `x` by the order of the tests: `x` belongs to the first test that
fails, and is OK when none does. -/
def endsWith : List (Prop × Status) → Status → Prop
  | [], x => x = .ok
  | (p, y) :: tests, x => (p ∧ x = y) ∨ (¬p ∧ endsWith tests x)

/-- The literal that variant `v` with index `i` declares: its index if bare (42_configuration.md R157). -/
def declares (v : Variant) (i : Nat) : Int :=
  match v with
  | .bare => i
  | .explicit n => n

end Sys2Proof.Safety
end

