-- ==== Sys2Proof/Certificates/Slice0/Obligations.lean ====
section
/-! DEFINITION. The statements for the provers, each from the numbered rules of spec/ its docstring
cites. A statement about writes assumes `Memory.wf s.buf`, the canonical form of the buffer, which
`StepKeepsInvariant` and `ResetMeetsInvariant` state of every state a run reaches. -/

open Sys2Proof Sys2Proof.Machine Sys2Proof.Safety

/-! ### Encoding -/

/-- 30_encoding.md R70, R72, R73: decoding the encoding of a well-formed command gives it back. -/
def Obligations.DecodeInvertsEncode : Prop :=
  ∀ (pw : Nat) (i : Instr), i.wellFormed pw = true → decode pw (encode pw i) = .ok i

/-- 95_test_vectors.md, sections 2.4 and 3: command words written out there decode to the commands
beside them. -/
def Obligations.WordsOfTheSpecDecode : Prop :=
  decode 32 0x01000000050000000500000000000000000000000000000000 = .ok (.rdbits 5 5) ∧
  decode 32 0x01FFFFFFFFFFFFFFFF00000000000000000000000000000000 =
    .ok (.rdbits 0xFFFFFFFF 0xFFFFFFFF) ∧
  decode 32 0x02000000040000001500000000000000000000000000012345 = .ok (.wrbits 4 21 0x12345) ∧
  decode 32 0x03000000070000000000000000000000000000000000000000 = .ok (.get 7) ∧
  decode 32 0x04000000030000000000000000000000000000000000ABCDEF = .ok (.set 3 0xABCDEF) ∧
  decode 32 0x05000000000000000000000000000000000000000000000000 = .ok .new ∧
  decode 32 0x06000000010000000200000000000000000000000000000003 = .error (.illegalOpcode 6)

/-- 30_encoding.md R75: words that differ only in ignored fields act alike, and the words of the
assembler have zeros there. -/
def Obligations.IgnoredFieldsHaveNoEffect : Prop :=
  (∀ (s : State) (w w' : Nat),
    commandOp s.cfg.pw w = commandOp s.cfg.pw w' →
    (commandOp s.cfg.pw w ∈ [1, 2, 3, 4] → commandA s.cfg.pw w = commandA s.cfg.pw w') →
    (commandOp s.cfg.pw w ∈ [1, 2] → commandB s.cfg.pw w = commandB s.cfg.pw w') →
    (commandOp s.cfg.pw w ∈ [2, 4] → commandV w = commandV w') →
    runCommand w s = runCommand w' s) ∧
  (∀ (c : Config) (src : Source) (w : Nat), sourceWord c src = .ok w →
    (commandOp c.pw w = 5 → commandA c.pw w = 0) ∧
    (commandOp c.pw w ∈ [3, 4, 5] → commandB c.pw w = 0) ∧
    (commandOp c.pw w ∈ [1, 3, 5] → commandV w = 0))

/-- 30_encoding.md R74, R76; 60_exceptions.md R197: a word of any other opcode is answered
IllegalCommand, or Faulted by a faulted unit, and changes neither `BUF` nor `FLT`. `answered` also sets
the mark `hostErr` on IllegalCommand, the model's own field (log 4). -/
def Obligations.IllegalOpcodesAreRefused : Prop :=
  ∀ (s : State) (w : Nat), commandOp s.cfg.pw w ∉ [1, 2, 3, 4, 5] →
    (s.flt = none → runCommand w s = .next (answered .illegalCommand 0 s)) ∧
    (∀ e, s.flt = some e →
      runCommand w s = .next (answered .faulted ((fltByte s.flt).setWidth 128) s))

/-! ### The step -/

/-- 00_scope.md R9, 30_encoding.md R79: in a unit that exists, a step on a presented command word runs
exactly the command the word decodes to, and a step with a command in flight and no reset runs that
one, taking nothing from the host. -/
def Obligations.StepRunsTheDecodedCommand : Prop :=
  (∀ (s : State) (w : Nat) (rest : List HostInput) (i : Instr),
    configWf s.cfg = true → s.inFlight = none → s.host = .command w :: rest →
    decode s.cfg.pw w = .ok i → step s = exec i { s with host := rest }) ∧
  (∀ (s : State) (w : Nat) (i : Instr),
    configWf s.cfg = true → s.inFlight = some w → s.host.head? ≠ some .reset →
    decode s.cfg.pw w = .ok i → step s = exec i { s with inFlight := none })

/-- 00_scope.md R9, R5; 70_reset_and_hazards.md R236; 93_implementation_defined.md U15: a unit that
exists answers every step, every command word gets exactly one response, a configuration that is not
well formed has no step, and a step on the host's reset input is exactly a reset. That the host's
inputs stand in the state, and that a reset is one of them, is the model's choice (log 2). -/
def Obligations.StepIsTotal : Prop :=
  (∀ s : State, configWf s.cfg = true → ∃ t, step s = .next t) ∧
  (∀ (s : State) (rest : List HostInput), configWf s.cfg = true → s.host = .reset :: rest →
    step s = .next (unitReset { s with host := rest })) ∧
  (∀ s : State, configWf s.cfg = false → step s = .fault .noUnit) ∧
  (∀ (s : State) (w : Nat), ∃ t r, runCommand w s = .next t ∧ t.responses = s.responses ++ [r])

/-- 60_exceptions.md R196: whatever words a faulted unit gets, each is answered Faulted with the code of
the first fatal error, nothing else changes, and reset returns it to service zero-filled. -/
def Obligations.FaultedUnitRefusesEverything : Prop :=
  (∀ (s : State) (e : FatalError) (ws : List Nat), s.flt = some e →
    runCommands s ws =
      .next { s with
        responses := s.responses ++
          List.replicate ws.length { status := .faulted, data := (fatalCode e).setWidth 128 } }) ∧
  (∀ s : State, (unitReset s).flt = none ∧ ∀ a, Memory.byte (unitReset s).buf a = 0)

/-- 10_state.md R23, R27: the latch is `none` (0) or one of four codes and `none` after reset; a step
writes it only when it is `none` and only by a command that ends with that fatal error; once set, only
reset changes it. -/
def Obligations.LatchKeepsTheFirstFatalError : Prop :=
  fltByte none = 0 ∧ fltByte (some .emptyRange) = 1 ∧ fltByte (some .outOfBounds) = 2 ∧
  fltByte (some .unsupportedWidth) = 3 ∧ fltByte (some .malformedRepr) = 4 ∧
  (∀ c, (State.resetOf c).flt = none) ∧
  (∀ (s t : State) (e : FatalError), step s = .next t → s.flt = none → t.flt = some e →
    t.responses = s.responses ++ [{ status := .fatal e, data := 0 }]) ∧
  (∀ (s t : State) (e : FatalError), step s = .next t → s.flt = some e →
    s.host.head? ≠ some .reset →
    t.flt = some e ∧ t.buf = s.buf ∧
      (t = s ∨ t.responses =
        s.responses ++ [{ status := .faulted, data := (fatalCode e).setWidth 128 }]))

/-! ### Reset -/

/-- 10_state.md R30: after reset every byte is 0 and `FLT` is none, for every configuration, which
reset leaves as it is. -/
def Obligations.ResetStateIsZero : Prop :=
  ∀ c : Config,
    (State.resetOf c).cfg = c ∧ (State.resetOf c).flt = none ∧
    (State.resetOf c).inFlight = none ∧ ∀ i, i < c.nb → Memory.byte (State.resetOf c).buf i = 0

/-- 70_reset_and_hazards.md R230: an edge with `rst = 1` zero-fills `BUF`, clears `FLT`, drops a command
in flight without a response, accepts no command, and leaves `cmd_ready` at 1. -/
def Obligations.ResetClearsTheUnit : Prop :=
  ∀ (s : State) (p : PinsIn) (done : Bool), configWf s.cfg = true → p.rst = true →
    ∃ r, clockEdge s p done = .next r ∧ (∀ a, Memory.byte r.state.buf a = 0) ∧
      r.state.flt = none ∧ r.state.inFlight = none ∧ cmdReady r.state = true ∧ r.rsp = none ∧
      r.state.responses = s.responses ∧ r.state.cfg = s.cfg

/-- 70_reset_and_hazards.md R231: reset zero-fills `BUF` and clears `FLT` in every state; from a state
with `FLT = none`, NEW leaves the same `BUF` and `FLT` as reset; NEW is refused while `FLT != none`, and
leaves it. -/
def Obligations.NewAndResetAgree : Prop :=
  (∀ s : State, (unitReset s).flt = none ∧ ∀ a, Memory.byte (unitReset s).buf a = 0) ∧
  (∀ s : State, Inv s → s.flt = none →
    ∃ t, exec .new s = .next t ∧ t.buf = (unitReset s).buf ∧ t.flt = (unitReset s).flt) ∧
  (∀ (s : State) (e : FatalError), s.flt = some e →
    exec .new s = .next (answered .faulted ((fatalCode e).setWidth 128) s))

/-! ### The bit-range codec -/

/-- 40_codec.md R101: `read_bits` is the weighted sum of the bits, equals the loop `v <- 2*v + bit`, is
below `2^width`, and depends only on the bytes `start div 8 .. (end-1) div 8`. -/
def Obligations.ReadBitsIsTheWeightedSum : Prop :=
  ∀ (m : Memory) (start stop : Nat), start < stop →
    readBits m start stop = weightedSum m start stop ∧
    readBits m start stop =
      (List.range' start (stop - start)).foldl (fun v p => 2 * v + (Memory.bit m p).toNat) 0 ∧
    readBits m start stop < 2 ^ (stop - start) ∧
    (∀ m' : Memory,
      (∀ x, start / 8 ≤ x → x ≤ (stop - 1) / 8 → Memory.byte m x = Memory.byte m' x) →
      readBits m start stop = readBits m' start stop)

/-- 40_codec.md R102: position `p` of the range gets value bit `end-1-p`, every other bit is kept, only
`value mod 2^width` matters, and bytes outside the window are equal. -/
def Obligations.WriteBitsIsBitwise : Prop :=
  ∀ (m : Memory) (start stop value : Nat), Memory.wf m = true → start < stop →
    (∀ p, Memory.bit (writeBits m start stop value) p =
      if start ≤ p ∧ p < stop then value.testBit (stop - 1 - p) else Memory.bit m p) ∧
    writeBits m start stop value = writeBits m start stop (value % 2 ^ (stop - start)) ∧
    (∀ x, x < start / 8 ∨ (stop - 1) / 8 < x →
      Memory.byte (writeBits m start stop value) x = Memory.byte m x)

/-- 40_codec.md R103, R101: RDBITS of a legal range responds OK with the value read and changes nothing
else. -/
def Obligations.RdbitsRespondsTheValue : Prop :=
  ∀ (s : State) (start stop : Nat), s.flt = none →
    start < stop → stop ≤ s.cfg.nbits → stop - start ≤ 128 →
    exec (.rdbits start stop) s =
      .next { s with
        responses := s.responses ++
          [{ status := .ok, data := BitVec.ofNat 128 (weightedSum s.buf start stop) }] } ∧
    weightedSum s.buf start stop < 2 ^ (stop - start)

/-- 40_codec.md R104, R102: WRBITS of a legal range writes the range's bits, responds `(OK, 0)` and
changes nothing else. -/
def Obligations.WrbitsWritesTheRange : Prop :=
  ∀ (s : State) (start stop : Nat) (value : Value), Memory.wf s.buf = true → s.flt = none →
    start < stop → stop ≤ s.cfg.nbits → stop - start ≤ 128 →
    ∃ m : Memory,
      exec (.wrbits start stop value) s =
        .next { s with
          buf := m, responses := s.responses ++ [{ status := .ok, data := 0 }] } ∧
      Memory.wf m = true ∧
      ∀ p, Memory.bit m p =
        if start ≤ p ∧ p < stop then value.getLsbD (stop - 1 - p) else Memory.bit s.buf p

/-- 40_codec.md R100; 60_exceptions.md R193: the range check, as RDBITS and WRBITS show it: the fatal
error of the first failed test, in the fixed order, and a response OK when none fails. -/
def Obligations.BadRangesRaise : Prop :=
  ∀ (s : State) (start stop : Nat) (i : Instr), s.flt = none →
    (i = .rdbits start stop ∨ ∃ value, i = .wrbits start stop value) →
    (start ≥ stop → exec i s = .next (raised .emptyRange s)) ∧
    (start < stop → stop > s.cfg.nbits → exec i s = .next (raised .outOfBounds s)) ∧
    (start < stop → stop ≤ s.cfg.nbits → stop - start > 128 →
      exec i s = .next (raised .unsupportedWidth s)) ∧
    (start < stop → stop ≤ s.cfg.nbits → stop - start ≤ 128 →
      ∃ t d, exec i s = .next t ∧ t.flt = none ∧
        t.responses = s.responses ++ [{ status := .ok, data := d }])

/-- 40_codec.md R105: a read of a range just written returns `value mod 2^width`. -/
def Obligations.WriteThenReadReturnsTheValue : Prop :=
  ∀ (m : Memory) (nbits start stop value : Nat), Memory.wf m = true →
    checkRange nbits start stop = none → value < 2 ^ 128 →
    readBits (writeBits m start stop value) start stop = value % 2 ^ (stop - start)

/-- 40_codec.md R106: a write keeps every bit outside its range, so a read of a disjoint range is
unchanged. -/
def Obligations.WritePreservesOtherBits : Prop :=
  ∀ (m : Memory) (nbits start stop value : Nat), Memory.wf m = true →
    checkRange nbits start stop = none →
    (∀ p, ¬(start ≤ p ∧ p < stop) →
      Memory.bit (writeBits m start stop value) p = Memory.bit m p) ∧
    (∀ a b, checkRange nbits a b = none → (b ≤ start ∨ stop ≤ a) →
      readBits (writeBits m start stop value) a b = readBits m a b)

/-- 20_memory.md R43: a read splits at any inner position, and a read of any sub-range of a range just
written returns those bits of the value. -/
def Obligations.ReadsSeeOneBitArray : Prop :=
  (∀ (m : Memory) (start mid stop : Nat), start < mid → mid < stop →
    mid - start ≤ 128 → stop - mid ≤ 128 →
    readBits m start stop = readBits m start mid * 2 ^ (stop - mid) + readBits m mid stop) ∧
  (∀ (m : Memory) (start stop value a b : Nat), Memory.wf m = true →
    start ≤ a → a < b → b ≤ stop →
    readBits (writeBits m start stop value) a b =
      value % 2 ^ (stop - start) / 2 ^ (stop - b) % 2 ^ (b - a))

/-- 20_memory.md R42: a byte-aligned range reads as its bytes in big-endian order. -/
def Obligations.AlignedRangesAreBigEndian : Prop :=
  ∀ (m : Memory) (i k : Nat),
    readBits m (8 * i) (8 * (i + k)) =
      ∑ j ∈ Finset.range k, (Memory.byte m (i + j)).toNat * 256 ^ (k - 1 - j)

/-- 10_state.md R22; 20_memory.md R58: the wire format is `NB` bytes, byte `i` being the read of its
eight positions. -/
def Obligations.WireFormatIsTheByteReads : Prop :=
  ∀ s : State, (Memory.wire s.cfg.nb s.buf).length = s.cfg.nb ∧
    ∀ i, i < s.cfg.nb →
      (Memory.wire s.cfg.nb s.buf)[i]? =
        some (BitVec.ofNat 8 (readBits s.buf (8 * i) (8 * i + 8)))

/-! ### The offset/mask/shift datapath -/

/-- 40_codec.md R109: the offsets of a legal range and the identities between them. -/
def Obligations.OffsetsDescribeTheRange : Prop :=
  ∀ (nbits start stop : Nat), checkRange nbits start stop = none →
    firstByte start = start / 8 ∧ lastByte stop = (stop - 1) / 8 ∧ headSkip start = start % 8 ∧
    tailExtent stop = (stop - 1) % 8 + 1 ∧
    8 * firstByte start + headSkip start = start ∧
    8 * lastByte stop + tailExtent stop = stop ∧
    stop - start + headSkip start + (8 - tailExtent stop) = 8 * windowBytes start stop ∧
    headSkip start ≤ 7 ∧ 1 ≤ tailExtent stop ∧ tailExtent stop ≤ 8 ∧
    firstByte start ≤ lastByte stop ∧ windowBytes start stop = lastByte stop - firstByte start + 1 ∧
    1 ≤ windowBytes start stop ∧ windowBytes start stop ≤ 17

/-- 40_codec.md R110: every byte of the window has 1 to 8 covered bits, an interior byte all eight, the
mask picks exactly the covered bits of the range, and the covered bits sum to the width. -/
def Obligations.CoveredBitsSumToTheWidth : Prop :=
  ∀ (nbits start stop : Nat), checkRange nbits start stop = none →
    (∀ b, firstByte start ≤ b → b ≤ lastByte stop →
      1 ≤ coverBits start stop b ∧ coverBits start stop b ≤ 8 ∧
      ∀ j, (coverMask start stop b).testBit j =
        decide (j < 8 ∧ start ≤ 8 * b + (7 - j) ∧ 8 * b + (7 - j) < stop)) ∧
    (∀ b, firstByte start < b → b < lastByte stop →
      coverLo start b = 0 ∧ coverHi stop b = 8 ∧ coverBits start stop b = 8 ∧
      coverShift stop b = 0 ∧ coverMask start stop b = 0xFF) ∧
    ∑ j ∈ Finset.range (windowBytes start stop), coverBits start stop (firstByte start + j) =
      stop - start

/-- 40_codec.md R111: the chunked read equals the bit-by-bit read. -/
def Obligations.ChunkedReadEqualsReadBits : Prop :=
  ∀ (m : Memory) (nbits start stop : Nat), checkRange nbits start stop = none →
    chunkedRead m start stop = readBits m start stop

/-- 40_codec.md R112: the chunked write equals the bit-by-bit write. -/
def Obligations.ChunkedWriteEqualsWriteBits : Prop :=
  ∀ (m : Memory) (nbits start stop value : Nat), Memory.wf m = true →
    checkRange nbits start stop = none →
    chunkedWrite m start stop value = writeBits m start stop value

/-- 40_codec.md R113: the window form, one wide shift and one wide mask, equals the bit-by-bit codec. -/
def Obligations.WindowFormEqualsTheCodec : Prop :=
  ∀ (m : Memory) (nbits start stop value : Nat), Memory.wf m = true →
    checkRange nbits start stop = none →
    windowRead m start stop = readBits m start stop ∧
    windowWrite m start stop value = writeBits m start stop value

/-! ### Accessors -/

/-- 41_accessors.md R133, R131, R130: GET of a field of non-zero width in a unit that exists responds OK
with the Target value its bits stand for, and changes nothing else. That the value is below `2^64` rests,
for an enum, on the model's bound of 63 bits on an enum field (log 15, DEDUCED from 42_configuration.md
R156, R165 and 20_memory.md R45). -/
def Obligations.GetRespondsTheTarget : Prop :=
  ∀ (s : State) (f : Nat) (fld : Field), configWf s.cfg = true → s.flt = none →
    s.cfg.fields[f]? = some fld → 1 ≤ fld.bits →
    ∃ t : Nat, t < 2 ^ 64 ∧
      standsFor fld.kind (weightedSum s.buf fld.off (fld.off + fld.bits)) t ∧
      exec (.get f) s =
        .next { s with
          responses := s.responses ++ [{ status := .ok, data := BitVec.ofNat 128 t }] }

/-- 41_accessors.md R134, R132; 40_codec.md R102: SET of a field of non-zero width to a valid Target
value writes its container value into the field's range, cut to the field's width, responds `(OK, 0)`
and changes nothing else. -/
def Obligations.SetWritesTheField : Prop :=
  ∀ (s : State) (f : Nat) (fld : Field) (t : Value), configWf s.cfg = true →
    Memory.wf s.buf = true → s.flt = none → s.cfg.fields[f]? = some fld → 1 ≤ fld.bits →
    validTarget fld.kind fld.cwid t.toNat →
    ∃ (c : Nat) (m : Memory), containerOf fld.kind t.toNat c ∧
      exec (.set f t) s =
        .next { s with
          buf := m, responses := s.responses ++ [{ status := .ok, data := 0 }] } ∧
      Memory.wf m = true ∧
      ∀ p, Memory.bit m p =
        if fld.off ≤ p ∧ p < fld.off + fld.bits then c.testBit (fld.off + fld.bits - 1 - p)
        else Memory.bit s.buf p

/-- 41_accessors.md R135: NEW zero-fills every byte of `BUF`, responds `(OK, 0)` and leaves `FLT` and
all else alone. -/
def Obligations.NewZeroFillsTheBuffer : Prop :=
  ∀ s : State, Memory.wf s.buf = true → s.flt = none →
    ∃ m : Memory,
      exec .new s =
        .next { s with
          buf := m, responses := s.responses ++ [{ status := .ok, data := 0 }] } ∧
      Memory.wf m = true ∧
      (∀ i, i < s.cfg.nb → Memory.byte m i = 0) ∧
      (∀ i, s.cfg.nb ≤ i → Memory.byte m i = Memory.byte s.buf i)

/-- 41_accessors.md R135, corner cases; 70_reset_and_hazards.md R233: after NEW every GET of a field of
non-zero width returns the decoding of zero bits: 0 for `prim` and `bool`, the index of discriminant 0
for `enum`. -/
def Obligations.FieldsReadZeroAfterNew : Prop :=
  ∀ (s : State) (f : Nat) (fld : Field), Inv s → s.flt = none →
    s.cfg.fields[f]? = some fld → 1 ≤ fld.bits →
    ∃ t u v, exec .new s = .next t ∧ exec (.get f) t = .next u ∧ standsFor fld.kind 0 v ∧
      u.responses = t.responses ++ [{ status := .ok, data := BitVec.ofNat 128 v }]

/-- 41_accessors.md R136: SET of a value representable in the field's width, then GET, returns it. -/
def Obligations.SetThenGetReturnsTheValue : Prop :=
  ∀ (s : State) (f : Nat) (fld : Field) (v : Value), Inv s → s.flt = none →
    s.cfg.fields[f]? = some fld → 1 ≤ fld.bits → representable fld.kind v.toNat →
    ∃ t u, exec (.set f v) s = .next t ∧ exec (.get f) t = .next u ∧
      u.responses = s.responses ++ [{ status := .ok, data := 0 }, { status := .ok, data := v }]

/-- 41_accessors.md R137: SET of a `prim(n)` field to a value of the container wider than `n` bits stores
it modulo `2^n`; GET returns that. -/
def Obligations.SetTruncatesWideValues : Prop :=
  ∀ (s : State) (f n : Nat) (fld : Field) (v : Value), Inv s → s.flt = none →
    s.cfg.fields[f]? = some fld → 1 ≤ fld.bits → fld.kind = .prim n →
    2 ^ n ≤ v.toNat → v.toNat < 2 ^ widthBits fld.cwid →
    ∃ t u, exec (.set f v) s = .next t ∧ exec (.get f) t = .next u ∧
      u.responses = s.responses ++
        [{ status := .ok, data := 0 }, { status := .ok, data := BitVec.ofNat 128 (v.toNat % 2 ^ n) }]

/-- 41_accessors.md R138: a successful SET of field `i` changes no bit of the range of any other field,
and GET of that field responds as it would have before. -/
def Obligations.SetLeavesOtherFieldsAlone : Prop :=
  ∀ (s t : State) (i j : Nat) (v : Value) (fld : Field), Inv s → i ≠ j →
    exec (.set i v) s = .next t →
    t.responses = s.responses ++ [{ status := .ok, data := 0 }] →
    s.cfg.fields[j]? = some fld →
    (∀ p, fld.off ≤ p → p < fld.off + fld.bits → Memory.bit t.buf p = Memory.bit s.buf p) ∧
    ∃ r u u', exec (.get j) s = .next u ∧ exec (.get j) t = .next u' ∧
      u.responses = s.responses ++ [r] ∧ u'.responses = t.responses ++ [r]

/-- 41_accessors.md R132, R133, R134; 60_exceptions.md R195: a field index with no field, and a SET
operand that is no valid Target encoding, are refused with BadOperand and change nothing of the unit.
`answered` also sets the mark `hostErr`, the model's own field (log 4). -/
def Obligations.BadOperandsAreRefused : Prop :=
  ∀ (s : State) (f : Nat) (t : Value), s.flt = none →
    (s.cfg.fields.length ≤ f →
      exec (.get f) s = .next (answered .badOperand 0 s) ∧
      exec (.set f t) s = .next (answered .badOperand 0 s)) ∧
    (∀ fld, s.cfg.fields[f]? = some fld → ¬validTarget fld.kind fld.cwid t.toNat →
      exec (.set f t) s = .next (answered .badOperand 0 s))

/-- 41_accessors.md R139: GET and SET of a zero-width field raise EmptyRange, SET after its operand
check; the field owns no position and does not move the offset of the next one. -/
def Obligations.ZeroWidthFieldsRaise : Prop :=
  ∀ (s : State) (f : Nat) (fld : Field), configWf s.cfg = true → s.flt = none →
    s.cfg.fields[f]? = some fld → fld.bits = 0 →
    exec (.get f) s = .next (raised .emptyRange s) ∧
    (∀ t : Value, validTarget fld.kind fld.cwid t.toNat →
      exec (.set f t) s = .next (raised .emptyRange s)) ∧
    (∀ next, s.cfg.fields[f + 1]? = some next → next.off = fld.off)

/-- 41_accessors.md R131: the conversion's two error branches, applied directly, and its successes. -/
def Obligations.ConversionRejectsForeignBits : Prop :=
  (∀ n raw, fromContainer (.prim n) raw = .ok raw) ∧
  fromContainer .bool 0 = .ok 0 ∧ fromContainer .bool 1 = .ok 1 ∧
  (∀ raw, raw ≥ 2 → fromContainer .bool raw = .error .malformedRepr) ∧
  (∀ (disc : List Nat) (raw : Nat), raw ∉ disc → fromContainer (.enum disc) raw = .error .invalidDiscriminant) ∧
  (∀ (disc : List Nat) (i raw : Nat), disc.Nodup → disc[i]? = some raw →
    fromContainer (.enum disc) raw = .ok i)

/-- 41_accessors.md R131; 90_conflicts.md C6, C7: in a well-formed configuration no GET ends in
MalformedRepr or InvalidDiscriminant. -/
def Obligations.DeadBranchesAreNeverTaken : Prop :=
  ∀ (s t : State) (f : Nat) (r : Response), configWf s.cfg = true → exec (.get f) s = .next t →
    t.responses = s.responses ++ [r] →
    r.status ≠ .fatal .malformedRepr ∧ r.status ≠ .invalidDiscriminant

/-! ### Errors -/

/-- 60_exceptions.md R197: every command word ends at the first test it fails, in the fixed order, and is
OK when it fails none. -/
def Obligations.ChecksRunInTheFixedOrder : Prop :=
  ∀ (s : State) (w : Nat), ∃ t r, runCommand w s = .next t ∧ t.responses = s.responses ++ [r] ∧
    endsWith (orderedTests s w) r.status

/-- 60_exceptions.md R192: the statuses each command can end with in a well-formed configuration. -/
def Obligations.StatusesOfEachCommand : Prop :=
  ∀ (s t : State) (r : Response), configWf s.cfg = true →
    t.responses = s.responses ++ [r] →
    (∀ start stop, exec (.rdbits start stop) s = .next t →
      r.status ∈ [.ok, .fatal .emptyRange, .fatal .outOfBounds, .fatal .unsupportedWidth, .faulted]) ∧
    (∀ start stop value, exec (.wrbits start stop value) s = .next t →
      r.status ∈ [.ok, .fatal .emptyRange, .fatal .outOfBounds, .fatal .unsupportedWidth, .faulted]) ∧
    (∀ f, exec (.get f) s = .next t →
      r.status ∈ [.ok, .fatal .emptyRange, .fatal .malformedRepr, .invalidDiscriminant, .badOperand,
        .faulted]) ∧
    (∀ f v, exec (.set f v) s = .next t →
      r.status ∈ [.ok, .fatal .emptyRange, .badOperand, .faulted]) ∧
    (exec .new s = .next t → r.status ∈ [.ok, .faulted]) ∧
    (∀ w, commandOp s.cfg.pw w ∉ [1, 2, 3, 4, 5] → runCommand w s = .next t →
      r.status ∈ [.illegalCommand, .faulted])

/-- 60_exceptions.md R194: GET of an enum field whose bits equal no discriminant responds
InvalidDiscriminant with `DATA = 0`, changes nothing, and the next command is executed as from the
state before: the same `BUF`, the same `FLT` and the same response. -/
def Obligations.InvalidDiscriminantIsRecoverable : Prop :=
  ∀ (s : State) (f : Nat) (fld : Field) (disc : List Nat), s.flt = none →
    s.cfg.fields[f]? = some fld → fld.kind = .enum disc →
    checkRange s.cfg.nbits fld.off (fld.off + fld.bits) = none →
    weightedSum s.buf fld.off (fld.off + fld.bits) ∉ disc →
    exec (.get f) s = .next (answered .invalidDiscriminant 0 s) ∧
    ∀ i : Instr, ∃ u u' r, exec i s = .next u ∧
      exec i (answered .invalidDiscriminant 0 s) = .next u' ∧
      u'.buf = u.buf ∧ u'.flt = u.flt ∧ u.responses = s.responses ++ [r] ∧
      u'.responses = (answered .invalidDiscriminant 0 s).responses ++ [r]

/-- 20_memory.md R46: a command word that ends in any error leaves the whole buffer as it was. -/
def Obligations.ErrorsLeaveTheBufferAlone : Prop :=
  ∀ (s t : State) (w : Nat) (r : Response), runCommand w s = .next t →
    t.responses = s.responses ++ [r] → r.status ≠ .ok → t.buf = s.buf

/-- 20_memory.md R51: commands take effect one at a time in the order issued: after any list of command
words, each bit of the buffer is the one written by the latest word that succeeded in writing its
position, else the bit it was, and a read of a range returns those bits. -/
def Obligations.ReadsReturnTheLatestWrite : Prop :=
  ∀ (s t : State) (ws : List Nat), Memory.wf s.buf = true → runCommands s ws = .next t →
    (∀ p, Memory.bit t.buf p = latestBit p s (Memory.bit s.buf p) ws) ∧
    (∀ start stop, start < stop →
      readBits t.buf start stop =
        ∑ p ∈ Finset.Ico start stop,
          (latestBit p s (Memory.bit s.buf p) ws).toNat * 2 ^ (stop - 1 - p))

/-- 30_encoding.md R76; 60_exceptions.md R191: the response word holds the status code above the data;
the codes; and `DATA` is 0 but for OK of RDBITS and GET, and for Faulted, where it is `FLT`. -/
def Obligations.ResponseWordLayout : Prop :=
  (∀ r : Response, (responseWord r).extractLsb' 128 8 = statusCode r.status ∧
    (responseWord r).extractLsb' 0 128 = r.data) ∧
  statusCode .ok = 0x00 ∧ statusCode (.fatal .emptyRange) = 0x01 ∧
  statusCode (.fatal .outOfBounds) = 0x02 ∧ statusCode (.fatal .unsupportedWidth) = 0x03 ∧
  statusCode (.fatal .malformedRepr) = 0x04 ∧ statusCode .invalidDiscriminant = 0x05 ∧
  statusCode .badOperand = 0x06 ∧ statusCode .illegalCommand = 0x07 ∧ statusCode .faulted = 0x08 ∧
  (∀ (s t : State) (w : Nat) (r : Response), runCommand w s = .next t →
    t.responses = s.responses ++ [r] →
    (r.status = .faulted → r.data = (fltByte s.flt).setWidth 128) ∧
    (r.status ≠ .ok → r.status ≠ .faulted → r.data = 0) ∧
    (r.status = .ok → commandOp s.cfg.pw w ∉ [1, 3] → r.data = 0))

/-- 60_exceptions.md R195; 92_eei_decisions.md D25; the mark is the model's own field (log 4): it is
set exactly by a BadOperand or IllegalCommand response, and no step clears it. -/
def Obligations.HostErrorsAreMarked : Prop :=
  (∀ (s t : State) (w : Nat) (r : Response), runCommand w s = .next t →
    t.responses = s.responses ++ [r] →
    (t.hostErr = true ↔
      s.hostErr = true ∨ r.status = .badOperand ∨ r.status = .illegalCommand)) ∧
  (∀ s t : State, step s = .next t → s.hostErr = true → t.hostErr = true)

/-! ### Frames -/

/-- 20_memory.md R47; 41_accessors.md R133; 40_codec.md R103: what RDBITS and GET leave unchanged, in
every state: every byte of memory, the configuration, the command in flight and the host's inputs; `FLT`
unless the command raises; and the model's mark `hostErr` (log 4) unless the response is BadOperand. -/
def Obligations.ReadersFrame : Prop :=
  ∀ (s t : State) (i : Instr),
    ((∃ start stop, i = .rdbits start stop) ∨ ∃ f, i = .get f) → exec i s = .next t →
    t.buf = s.buf ∧ (∀ a, Memory.byte t.buf a = Memory.byte s.buf a) ∧
    t.cfg = s.cfg ∧ t.inFlight = s.inFlight ∧ t.host = s.host ∧
    ∃ r, t.responses = s.responses ++ [r] ∧ ((∀ e, r.status ≠ .fatal e) → t.flt = s.flt) ∧
      (r.status ≠ .badOperand → t.hostErr = s.hostErr)

/-- 20_memory.md R47; 40_codec.md R104: what WRBITS leaves unchanged: every byte outside
`start div 8 .. (end-1) div 8` and every bit outside the range; the whole buffer when it does not end
OK; `FLT` unless it raises; and all else, the model's mark `hostErr` (log 4) too. -/
def Obligations.WrbitsFrame : Prop :=
  ∀ (s t : State) (start stop : Nat) (value : Value), Memory.wf s.buf = true →
    exec (.wrbits start stop value) s = .next t →
    (∀ x, x < start / 8 ∨ (stop - 1) / 8 < x → Memory.byte t.buf x = Memory.byte s.buf x) ∧
    (∀ p, ¬(start ≤ p ∧ p < stop) → Memory.bit t.buf p = Memory.bit s.buf p) ∧
    t.cfg = s.cfg ∧ t.inFlight = s.inFlight ∧ t.host = s.host ∧ t.hostErr = s.hostErr ∧
    ∃ r, t.responses = s.responses ++ [r] ∧ (r.status ≠ .ok → t.buf = s.buf) ∧
      ((∀ e, r.status ≠ .fatal e) → t.flt = s.flt)

/-- 20_memory.md R47; 41_accessors.md R134: what SET leaves unchanged: every byte the field's range does
not overlap and every bit outside that range; every byte when the index names no field or the command
does not end OK; `FLT` unless it raises; the model's mark `hostErr` (log 4) unless the response is
BadOperand; and all else. -/
def Obligations.SetFrame : Prop :=
  ∀ (s t : State) (f : Nat) (v : Value), Memory.wf s.buf = true → exec (.set f v) s = .next t →
    (∀ fld, s.cfg.fields[f]? = some fld →
      (∀ x, x < fld.off / 8 ∨ (fld.off + fld.bits - 1) / 8 < x →
        Memory.byte t.buf x = Memory.byte s.buf x) ∧
      (∀ p, ¬(fld.off ≤ p ∧ p < fld.off + fld.bits) → Memory.bit t.buf p = Memory.bit s.buf p)) ∧
    (s.cfg.fields[f]? = none → t.buf = s.buf) ∧
    t.cfg = s.cfg ∧ t.inFlight = s.inFlight ∧ t.host = s.host ∧
    ∃ r, t.responses = s.responses ++ [r] ∧ (r.status ≠ .ok → t.buf = s.buf) ∧
      ((∀ e, r.status ≠ .fatal e) → t.flt = s.flt) ∧
      (r.status ≠ .badOperand → t.hostErr = s.hostErr)

/-- 41_accessors.md R135: what NEW leaves unchanged: `FLT` always, no byte outside the `NB` bytes it
zero-fills, every byte when the unit is faulted, and all else, the model's mark `hostErr` (log 4) too. -/
def Obligations.NewFrame : Prop :=
  ∀ s t : State, Memory.wf s.buf = true → exec .new s = .next t →
    t.flt = s.flt ∧ (∀ a, s.cfg.nb ≤ a → Memory.byte t.buf a = Memory.byte s.buf a) ∧
    (s.flt ≠ none → t.buf = s.buf) ∧
    t.cfg = s.cfg ∧ t.inFlight = s.inFlight ∧ t.host = s.host ∧ t.hostErr = s.hostErr ∧
    ∃ r, t.responses = s.responses ++ [r]

/-! ### The configuration functions -/

/-- 42_configuration.md R150, R151: `best_fit(w)` is the smallest native width that is at least `w`,
fails with UnsupportedWidth exactly above 128, is monotone, and its result is at least 8. -/
def Obligations.BestFitIsTheSmallestWidth : Prop :=
  (∀ w, w ≤ 128 → ∃ n, bestFit w = .ok n ∧ w ≤ widthBits n ∧ 8 ≤ widthBits n ∧
    ∀ n', w ≤ widthBits n' → widthBits n ≤ widthBits n') ∧
  (∀ w, w > 128 → bestFit w = .error .unsupportedWidth) ∧
  (∀ w1 w2 n1 n2, w1 ≤ w2 → bestFit w1 = .ok n1 → bestFit w2 = .ok n2 →
    widthBits n1 ≤ widthBits n2)

/-- 42_configuration.md R155 to R159: an enum derivation that succeeds has a power of two of variants,
`BITS` its logarithm, each variant's discriminant as declared, and every value of `BITS` bits is the
discriminant of exactly one variant. -/
def Obligations.EnumDerivationIsABijection : Prop :=
  ∀ (vs : List Variant) (sp : Specifier), deriveEnum vs = .ok sp →
    ∃ disc : List Nat, sp.kind = .enum disc ∧ vs.length = 2 ^ sp.bits ∧ disc.length = vs.length ∧
      bestFit sp.bits = .ok sp.cwid ∧
      (∀ (i : Nat) (v : Variant) (d : Nat), vs[i]? = some v → disc[i]? = some d → (d : Int) = declares v i) ∧
      (∀ r, r < 2 ^ sp.bits → ∃! i : Nat, disc[i]? = some r)

/-- 42_configuration.md R155, R158, R159, R166: when each error of the enum derivation applies, over
every variant list. That a discriminant is too large only for a count that is a power of two, `2^BITS`
being defined only then, is the model's choice (log 9); a negative one overflows for every count. -/
def Obligations.EnumErrorsApplyExactly : Prop :=
  ∀ vs : List Variant,
    (ConfigError.nonPowerOfTwoVariantCount ∈ enumErrors vs ↔ ¬∃ b, vs.length = 2 ^ b) ∧
    (ConfigError.discriminantOverflow ∈ enumErrors vs ↔
      ∃ i v, vs[i]? = some v ∧
        (declares v i < 0 ∨ ∃ b, vs.length = 2 ^ b ∧ (2 : Int) ^ b ≤ declares v i)) ∧
    (ConfigError.duplicateDiscriminant ∈ enumErrors vs ↔
      ∃ i j v v', i < j ∧ vs[i]? = some v ∧ vs[j]? = some v' ∧ declares v i = declares v' j)

/-- 42_configuration.md R154, R162, R163, R164: elaboration places the fields by the running offset,
fails with WidthMismatch exactly for the fields whose asserted width is another, with MisalignedLayout
exactly when the total is no multiple of 8, and with UnknownSpecifier exactly for a type that is neither
`prim(0..64)`, nor `bool`, nor an enum successfully derived and of at most 63 bits. The model's choices,
not the spec's: MisalignedLayout is judged only where every type resolves, and a failed derivation has
UnknownSpecifier beside its own errors (log 9, DESIGN CHOICE); a derived enum wider than 63 bits is
unknown (log 15, DEDUCED). -/
def Obligations.PlannerPlacesAndChecks : Prop :=
  ∀ (pw : Nat) (decls : List FieldDecl),
    (∀ c, elaborate pw decls = .ok c →
      c.fields.length = decls.length ∧ 8 * c.nb = (c.fields.map Field.bits).sum ∧
      (∀ (f : Nat) (d : FieldDecl) (fld : Field), decls[f]? = some d → c.fields[f]? = some fld →
        fld.name = d.name ∧
        specifierOf d.type = .ok { kind := fld.kind, bits := fld.bits, cwid := fld.cwid } ∧
        fld.off = ((c.fields.take f).map Field.bits).sum ∧
        (∀ n, d.asserted = some n → n = fld.bits))) ∧
    (allResolve decls = true →
      (ConfigError.misalignedLayout ∈ configErrors decls ↔
        totalBits (planTable decls) % 8 ≠ 0)) ∧
    (∀ name expected actual,
      ConfigError.widthMismatch name expected actual ∈ configErrors decls ↔
        ∃ d ∈ decls, ∃ sp, d.name = name ∧ d.asserted = some expected ∧
          specifierOf d.type = .ok sp ∧ sp.bits = actual ∧ expected ≠ actual) ∧
    (ConfigError.unknownSpecifier ∈ configErrors decls ↔
      ∃ d ∈ decls, ¬((∃ n, d.type = .prim n ∧ n ≤ 64) ∨ d.type = .bool ∨
        ∃ vs sp, d.type = .enum vs ∧ deriveEnum vs = .ok sp ∧ sp.bits ≤ 63))

/-- 20_memory.md R45, R49; 42_configuration.md R165: in a well-formed configuration every position
belongs to exactly one field, fields follow one another with no gap, and every field lies in the buffer
and is at most 64 bits wide (an enum by the model's bound, log 15, DEDUCED). -/
def Obligations.FieldsPartitionTheBuffer : Prop :=
  ∀ c : Config, configWf c = true →
    (∀ p, p < c.nbits → ∃! f : Nat, ∃ fld : Field, c.fields[f]? = some fld ∧
      fld.off ≤ p ∧ p < fld.off + fld.bits) ∧
    (∀ (f : Nat) (fld next : Field), c.fields[f]? = some fld → c.fields[f + 1]? = some next →
      next.off = fld.off + fld.bits) ∧
    (∀ (f : Nat) (fld : Field), c.fields[f]? = some fld →
      fld.off + fld.bits ≤ c.nbits ∧ fld.bits ≤ 64 ∧ bestFit fld.bits = .ok fld.cwid)

/-- 42_configuration.md R167, R156: a configuration is well formed exactly when it is the elaboration of
some declaration list without a configuration error and its positions fit `PW` bits; and exactly when
the six conditions of R167 hold and no enum is wider than 63 bits. The bound on enums is R156's remark,
which R167 does not repeat (log 15). -/
def Obligations.WellFormedIsElaborated : Prop :=
  ∀ c : Config,
    (configWf c = true ↔ (∃ decls, elaborate c.pw decls = .ok c) ∧ 8 * c.nb < 2 ^ c.pw) ∧
    (configWf c = true ↔
      (∀ (f : Nat) (fld : Field), c.fields[f]? = some fld →
        (match fld.kind with
          | .prim n => n ≤ 64 ∧ fld.bits = n
          | .bool => fld.bits = 1
          | .enum disc => fld.bits ≤ 63 ∧ disc.length = 2 ^ fld.bits ∧ (∀ d ∈ disc, d < 2 ^ fld.bits) ∧ disc.Nodup) ∧
        bestFit fld.bits = .ok fld.cwid) ∧
      (∀ fld : Field, c.fields[0]? = some fld → fld.off = 0) ∧
      (∀ (f : Nat) (fld next : Field), c.fields[f]? = some fld → c.fields[f + 1]? = some next →
        next.off = fld.off + fld.bits) ∧
      8 * c.nb = (c.fields.map Field.bits).sum ∧ 8 * c.nb < 2 ^ c.pw)

/-! ### Invariants -/

/-- 10_state.md R20, R21; 00_scope.md R5: every step keeps the invariant: the configuration stays well
formed and the buffer stays one of `NB` bytes in canonical form. -/
def Obligations.StepKeepsInvariant : Prop :=
  ∀ s t : State, Inv s → step s = .next t → Inv t

/-- 10_state.md R30; 70_reset_and_hazards.md R232: the invariant holds after reset, of the reset state
and of every well-formed configuration's. The reset state's configuration is the model's choice
(log 1). -/
def Obligations.ResetMeetsInvariant : Prop :=
  Inv State.reset ∧ ∀ c, configWf c = true → Inv (State.resetOf c)

/-- 00_scope.md R4; 10_state.md R27, R30: no step and no clock edge changes the configuration. -/
def Obligations.ConfigurationIsConstant : Prop :=
  (∀ s t : State, step s = .next t → t.cfg = s.cfg) ∧
  (∀ (s : State) (p : PinsIn) (done : Bool) (r : EdgeResult), clockEdge s p done = .next r →
    r.state.cfg = s.cfg)

/-! ### Ports and handshake -/

/-- 30_encoding.md R79; 70_reset_and_hazards.md R230: a command is accepted only with `cmd_ready = 1`,
`cmd_valid = 1` and `rst = 0`; while one is in flight nothing is accepted, until its response ends the
flight; an edge with `rst = 1` accepts nothing and raises no response. The model's choices: `done` places
the response, and the state changes at its edge and not before (log 8); `cmd_ready` is 1 whenever
nothing is in flight, the response cycle included (log 19). -/
def Obligations.OneCommandInFlight : Prop :=
  ∀ (s : State) (p : PinsIn), configWf s.cfg = true →
    (cmdReady s = true ↔ s.inFlight = none) ∧
    (∀ done, p.rst = false → s.inFlight = none → p.cmdValid = true →
      clockEdge s p done =
        .next { state := { s with inFlight := some (p.cmd % 2 ^ (8 + 2 * s.cfg.pw + 128)) },
                rsp := none }) ∧
    (∀ done, p.rst = false → s.inFlight = none → p.cmdValid = false →
      clockEdge s p done = .next { state := s, rsp := none }) ∧
    (∀ w, p.rst = false → s.inFlight = some w →
      clockEdge s p false = .next { state := s, rsp := none }) ∧
    (∀ w, p.rst = false → s.inFlight = some w → ∃ r x, clockEdge s p true = .next r ∧
      r.rsp = some x ∧ cmdReady r.state = true) ∧
    (∀ done, p.rst = true → ∃ r, clockEdge s p done = .next r ∧ r.state.inFlight = none ∧
      r.state.responses = s.responses ∧ r.rsp = none ∧ cmdReady r.state = true)

/-- 30_encoding.md R79; 70_reset_and_hazards.md R236; 00_scope.md R9: whatever the latency and whatever
the host drives on the other pins meanwhile, an accepted command leaves the state of the one step that
takes it as a whole, and raises exactly the response word of that step. The edge model it speaks of is
the model's choice (log 8). -/
def Obligations.LatencyDoesNotMatter : Prop :=
  ∀ (s t : State) (w : Nat) (waits : List PinsIn) (last : PinsIn),
    configWf s.cfg = true → s.inFlight = none → w < 2 ^ (8 + 2 * s.cfg.pw + 128) →
    (∀ p ∈ waits, p.rst = false) → last.rst = false →
    step { s with host := .command w :: s.host } = .next t →
    ∃ r, t.responses = s.responses ++ [r] ∧
      ∀ accept : PinsIn, accept.rst = false → accept.cmdValid = true → accept.cmd = w →
        ∀ d, runEdges s ((accept, d) :: waits.map (fun p => (p, false)) ++ [(last, true)]) =
          .next { state := t, responses := [responseWord r] }

/-! ### Command text -/

/-- 30_encoding.md R81: each pseudo-command is the command it abbreviates, and a field name stands for
the index of the field that bears it. -/
def Obligations.PseudoCommandsAbbreviate : Prop :=
  (∀ c i, sourceWord c (.rdbyte i) = sourceWord c (.rdbits (8 * i) (8 * i + 8))) ∧
  (∀ c i v, sourceWord c (.wrbyte i v) = sourceWord c (.wrbits (8 * i) (8 * i + 8) v)) ∧
  (∀ c p, sourceWord c (.rdbit p) = sourceWord c (.rdbits p (p + 1))) ∧
  (∀ c p v, sourceWord c (.wrbit p v) = sourceWord c (.wrbits p (p + 1) v)) ∧
  (∀ (c : Config) (f : Nat) (fld : Field) (v : Nat), (c.fields.map Field.name).Nodup →
    c.fields[f]? = some fld →
    sourceWord c (.getName fld.name) = sourceWord c (.get f) ∧
    sourceWord c (.setName fld.name v) = sourceWord c (.set f v))
end

