-- ==== Sys2Proof/Laws/Memory.lean ====
section
/-! SUPPORT. The laws of the buffer: what a write of a byte or a bit does to every byte and bit, that
every operation keeps the canonical form, and that equal bytes are equal buffers. -/

namespace Sys2Proof.Laws

open Sys2Proof.Machine

/-! ### The canonical form -/

theorem wfFrom_cons (lo k : Nat) (b : Byte) (m : Memory) :
    Memory.wfFrom lo ((k, b) :: m) = true ↔ lo ≤ k ∧ b ≠ 0#8 ∧ Memory.wfFrom (k + 1) m = true := by
  simp [Memory.wfFrom, and_assoc]

theorem wfFrom_mono {lo lo' : Nat} {m : Memory} (h : Memory.wfFrom lo m = true) (hl : lo' ≤ lo) :
    Memory.wfFrom lo' m = true := by
  cases m with
  | nil => rfl
  | cons c m =>
    obtain ⟨k, b⟩ := c
    rw [wfFrom_cons] at h ⊢
    exact ⟨by omega, h.2⟩

/-- A byte below the first address reads as 0. -/
theorem byte_below {lo x : Nat} {m : Memory} (h : Memory.wfFrom lo m = true) (hx : x < lo) :
    Memory.byte m x = 0#8 := by
  induction m generalizing lo with
  | nil => rfl
  | cons c m ih =>
    obtain ⟨k, b⟩ := c
    rw [wfFrom_cons] at h
    rw [Memory.byte, if_neg (by omega)]
    exact ih h.2.2 (by omega)

theorem wfFrom_setByte {lo a : Nat} {m : Memory} (b : Byte) (h : Memory.wfFrom lo m = true)
    (ha : lo ≤ a) : Memory.wfFrom lo (Memory.setByte m a b) = true := by
  induction m generalizing lo with
  | nil =>
    by_cases hb : b = 0#8
    · simp [Memory.setByte, hb, Memory.wfFrom]
    · simp [Memory.setByte, hb, Memory.wfFrom, ha]
  | cons c m ih =>
    obtain ⟨k, d⟩ := c
    have h' := (wfFrom_cons lo k d m).1 h
    unfold Memory.setByte
    split
    · split
      · exact h
      · rename_i hak hb
        rw [wfFrom_cons]
        exact ⟨ha, hb, (wfFrom_cons _ _ _ _).2 ⟨by omega, h'.2⟩⟩
    · split
      · rename_i _ hak
        subst hak
        split
        · exact wfFrom_mono h'.2.2 (by omega)
        · rename_i hb
          exact (wfFrom_cons _ _ _ _).2 ⟨ha, hb, h'.2.2⟩
      · rw [wfFrom_cons]
        exact ⟨h'.1, h'.2.1, ih h'.2.2 (by omega)⟩

/-- Writing a byte keeps the canonical form. -/
theorem wf_setByte {m : Memory} (a : Nat) (b : Byte) (h : Memory.wf m = true) :
    Memory.wf (Memory.setByte m a b) = true :=
  wfFrom_setByte b h (Nat.zero_le a)

theorem inside_setByte {nb a : Nat} {m : Memory} (b : Byte) (h : Memory.inside nb m = true)
    (ha : a < nb) : Memory.inside nb (Memory.setByte m a b) = true := by
  induction m with
  | nil => by_cases hb : b = 0#8 <;> simp [Memory.setByte, Memory.inside, hb, ha]
  | cons c m ih =>
    obtain ⟨k, d⟩ := c
    simp only [Memory.inside, List.all_cons, Bool.and_eq_true, decide_eq_true_eq] at h ih
    unfold Memory.setByte
    split
    · split <;> simp [Memory.inside, h.1, ha, h.2]
    · split
      · split <;> simp [Memory.inside, h.2, ha]
      · simp only [Memory.inside, List.all_cons, Bool.and_eq_true, decide_eq_true_eq]
        exact ⟨h.1, ih h.2⟩

theorem byte_setByte_from {lo : Nat} {m : Memory} (a x : Nat) (b : Byte)
    (h : Memory.wfFrom lo m = true) :
    Memory.byte (Memory.setByte m a b) x = if x = a then b else Memory.byte m x := by
  induction m generalizing lo with
  | nil =>
    by_cases hb : b = 0#8 <;> by_cases hx : x = a <;> simp [Memory.setByte, Memory.byte, hb, hx]
  | cons c m ih =>
    obtain ⟨k, d⟩ := c
    have h' := (wfFrom_cons lo k d m).1 h
    unfold Memory.setByte
    by_cases hak : a < k
    · rw [if_pos hak]
      by_cases hx : x = a
      · subst hx
        by_cases hb : b = 0#8
        · rw [if_pos hb, if_pos rfl, hb]
          exact byte_below (lo := k) ((wfFrom_cons _ _ _ _).2 ⟨le_refl k, h'.2⟩) hak
        · simp [hb, Memory.byte]
      · by_cases hb : b = 0#8
        · simp [hb, hx]
        · simp [hb, hx, Memory.byte]
    · rw [if_neg hak]
      by_cases hak' : a = k
      · subst hak'
        rw [if_pos rfl]
        by_cases hx : x = a
        · subst hx
          by_cases hb : b = 0#8
          · rw [if_pos hb, if_pos rfl, hb]
            exact byte_below h'.2.2 (by omega)
          · simp [hb, Memory.byte]
        · by_cases hb : b = 0#8 <;> simp [hb, hx, Memory.byte]
      · rw [if_neg hak']
        by_cases hxk : x = k
        · have : x ≠ a := by omega
          simp [Memory.byte, hxk]
          omega
        · simp only [Memory.byte, if_neg hxk]
          exact ih h'.2.2

/-- A write of a byte is read back, and every other byte reads as before. -/
theorem byte_setByte {m : Memory} (a x : Nat) (b : Byte) (h : Memory.wf m = true) :
    Memory.byte (Memory.setByte m a b) x = if x = a then b else Memory.byte m x :=
  byte_setByte_from a x b h

theorem byte_outside {nb x : Nat} {m : Memory} (h : Memory.inside nb m = true) (hx : nb ≤ x) :
    Memory.byte m x = 0#8 := by
  induction m with
  | nil => rfl
  | cons c m ih =>
    obtain ⟨k, d⟩ := c
    simp only [Memory.inside, List.all_cons, Bool.and_eq_true, decide_eq_true_eq] at h ih
    rw [Memory.byte, if_neg (by omega)]
    exact ih h.2

theorem ext_from {lo : Nat} {m m' : Memory} (h : Memory.wfFrom lo m = true)
    (h' : Memory.wfFrom lo m' = true) (hb : ∀ x, Memory.byte m x = Memory.byte m' x) : m = m' := by
  induction m generalizing lo m' with
  | nil =>
    cases m' with
    | nil => rfl
    | cons c m' =>
      obtain ⟨k, b⟩ := c
      have := hb k
      rw [wfFrom_cons] at h'
      simp only [Memory.byte, if_pos] at this
      exact absurd this.symm h'.2.1
  | cons c m ih =>
    obtain ⟨k, b⟩ := c
    rw [wfFrom_cons] at h
    cases m' with
    | nil =>
      have := hb k
      simp only [Memory.byte, if_pos] at this
      exact absurd this h.2.1
    | cons c' m' =>
      obtain ⟨k', b'⟩ := c'
      rw [wfFrom_cons] at h'
      have hkk : k = k' := by
        rcases Nat.lt_trichotomy k k' with hlt | heq | hgt
        · have h1 := hb k
          rw [Memory.byte, if_pos rfl, Memory.byte, if_neg (by omega),
            byte_below h'.2.2 (by omega)] at h1
          exact absurd h1 h.2.1
        · exact heq
        · have h1 := hb k'
          rw [Memory.byte, if_neg (by omega), byte_below h.2.2 (by omega), Memory.byte,
            if_pos rfl] at h1
          exact absurd h1.symm h'.2.1
      subst hkk
      have hbb : b = b' := by simpa [Memory.byte] using hb k
      subst hbb
      have : m = m' := ih h.2.2 h'.2.2 fun x => by
        by_cases hx : x = k
        · rw [byte_below h.2.2 (by omega), byte_below h'.2.2 (by omega)]
        · simpa [Memory.byte, hx] using hb x
      rw [this]

/-- Buffers in canonical form with equal bytes are equal. -/
theorem memory_ext {m m' : Memory} (h : Memory.wf m = true) (h' : Memory.wf m' = true)
    (hb : ∀ x, Memory.byte m x = Memory.byte m' x) : m = m' :=
  ext_from h h' hb

/-! ### Zero fill -/

theorem wf_zeroFill {m : Memory} (n : Nat) (h : Memory.wf m = true) :
    Memory.wf (Memory.zeroFill n m) = true := by
  induction n with
  | zero => exact h
  | succ n ih => exact wf_setByte n 0#8 ih

theorem byte_zeroFill {m : Memory} (n x : Nat) (h : Memory.wf m = true) :
    Memory.byte (Memory.zeroFill n m) x = if x < n then 0#8 else Memory.byte m x := by
  induction n with
  | zero => simp [Memory.zeroFill]
  | succ n ih =>
    rw [Memory.zeroFill, byte_setByte n x 0#8 (wf_zeroFill n h), ih]
    rcases Nat.lt_trichotomy x n with hx | hx | hx
    · simp [hx, show x ≠ n by omega, show x < n + 1 by omega]
    · simp [hx]
    · simp [show ¬x < n by omega, show x ≠ n by omega, show ¬x < n + 1 by omega]

/-- Zero-filling a buffer of `nb` bytes leaves the buffer with no byte listed. -/
theorem zeroFill_inside {nb : Nat} {m : Memory} (h : Memory.wf m = true)
    (hi : Memory.inside nb m = true) : Memory.zeroFill nb m = [] :=
  memory_ext (wf_zeroFill nb h) rfl fun x => by
    rw [byte_zeroFill nb x h]
    by_cases hx : x < nb
    · simp [hx, Memory.byte]
    · simp [hx, Memory.byte, byte_outside hi (show nb ≤ x by omega)]

/-! ### Bits -/

theorem getLsbD_withBit (b : Byte) (i j : Nat) (v : Bool) (hi : i < 8) :
    (withBit b i v).getLsbD j = if j = i then v else b.getLsbD j := by
  unfold withBit
  by_cases hj : j < 8
  · cases v <;> by_cases hij : j = i <;> simp [hij, hi, hj]
  · have : j ≠ i := by omega
    rw [if_neg this]
    rw [BitVec.getLsbD_of_ge _ _ (by omega), BitVec.getLsbD_of_ge _ _ (by omega)]

theorem wf_setBit {m : Memory} (p : Nat) (v : Bool) (h : Memory.wf m = true) :
    Memory.wf (Memory.setBit m p v) = true :=
  wf_setByte _ _ h

theorem inside_setBit {nb : Nat} {m : Memory} (p : Nat) (v : Bool) (h : Memory.inside nb m = true)
    (hp : p < 8 * nb) : Memory.inside nb (Memory.setBit m p v) = true :=
  inside_setByte _ h (by omega)

/-- A write of a bit is read back, and every other bit reads as before. -/
theorem bit_setBit {m : Memory} (p q : Nat) (v : Bool) (h : Memory.wf m = true) :
    Memory.bit (Memory.setBit m p v) q = if q = p then v else Memory.bit m q := by
  unfold Memory.bit Memory.setBit
  rw [byte_setByte _ _ _ h]
  by_cases hb : q / 8 = p / 8
  · rw [if_pos hb, getLsbD_withBit _ _ _ _ (by omega)]
    by_cases hq : q = p
    · simp [hq]
    · rw [if_neg (by omega), if_neg hq, hb]
  · rw [if_neg hb, if_neg (by rintro rfl; exact hb rfl)]

/-- A write of a bit leaves every byte but its own as it was. -/
theorem byte_setBit_other {m : Memory} (p x : Nat) (v : Bool) (h : Memory.wf m = true)
    (hx : x ≠ p / 8) : Memory.byte (Memory.setBit m p v) x = Memory.byte m x := by
  unfold Memory.setBit
  rw [byte_setByte _ _ _ h, if_neg hx]

/-- The eight bits of a byte are the byte. -/
theorem byte_eq_of_bits {m m' : Memory} (x : Nat)
    (h : ∀ p, p / 8 = x → Memory.bit m p = Memory.bit m' p) :
    Memory.byte m x = Memory.byte m' x := by
  apply BitVec.eq_of_getLsbD_eq
  intro i hi
  have := h (8 * x + (7 - i)) (by omega)
  unfold Memory.bit at this
  rwa [show (8 * x + (7 - i)) / 8 = x by omega, show 7 - (8 * x + (7 - i)) % 8 = i by omega] at this

/-- Buffers in canonical form with equal bits are equal. -/
theorem memory_ext_bits {m m' : Memory} (h : Memory.wf m = true) (h' : Memory.wf m' = true)
    (hb : ∀ p, Memory.bit m p = Memory.bit m' p) : m = m' :=
  memory_ext h h' fun x => byte_eq_of_bits x fun p _ => hb p

/-- A position beyond the buffer reads as 0. -/
theorem bit_outside {nb p : Nat} {m : Memory} (h : Memory.inside nb m = true) (hp : 8 * nb ≤ p) :
    Memory.bit m p = false := by
  unfold Memory.bit
  rw [byte_outside h (by omega)]
  simp

end Sys2Proof.Laws
end

