-- ==== Sys2Proof/Laws/Codec.lean ====
section
/-! SUPPORT. The laws of the bit-by-bit codec: the bits of the value read, the bits of the buffer
written, and what the range check answers. -/

namespace Sys2Proof.Laws

open Sys2Proof.Machine

/-! ### Reading -/

theorem readRun_lt (m : Memory) (start n : Nat) : readRun m start n < 2 ^ n := by
  induction n with
  | zero => simp [readRun]
  | succ n ih =>
    have := Bool.toNat_lt (Memory.bit m (start + n))
    rw [readRun, pow_succ]
    omega

/-- The value read fits the width of the range (40_codec.md R101). -/
theorem readBits_lt (m : Memory) (start stop : Nat) : readBits m start stop < 2 ^ (stop - start) :=
  readRun_lt m start (stop - start)

/-- Value bit `k` of a run of `n` positions is the bit at position `start + n - 1 - k`. -/
theorem testBit_readRun (m : Memory) (start n k : Nat) :
    (readRun m start n).testBit k = (decide (k < n) && Memory.bit m (start + (n - 1 - k))) := by
  induction n generalizing k with
  | zero => simp [readRun]
  | succ n ih =>
    rw [readRun]
    cases k with
    | zero =>
      rw [Nat.testBit_zero]
      cases h : Memory.bit m (start + n) <;> simp [Nat.add_mod, h]
    | succ k =>
      rw [Nat.testBit_succ,
        show (2 * readRun m start n + (Memory.bit m (start + n)).toNat) / 2 = readRun m start n by
          have := Bool.toNat_lt (Memory.bit m (start + n)); omega, ih]
      simp [show n - (k + 1) = n - 1 - k by omega]

/-- The earlier position is the more significant bit (20_memory.md R41). -/
theorem testBit_readBits (m : Memory) (start stop k : Nat) :
    (readBits m start stop).testBit k =
      (decide (k < stop - start) && Memory.bit m (start + (stop - start - 1 - k))) :=
  testBit_readRun m start (stop - start) k

/-- Reads of equal bits are equal. -/
theorem readRun_congr {m m' : Memory} {start n : Nat}
    (h : ∀ p, start ≤ p → p < start + n → Memory.bit m p = Memory.bit m' p) :
    readRun m start n = readRun m' start n := by
  induction n with
  | zero => rfl
  | succ n ih =>
    rw [readRun, readRun, ih fun p h1 h2 => h p h1 (by omega), h (start + n) (by omega) (by omega)]

theorem readBits_congr {m m' : Memory} {start stop : Nat}
    (h : ∀ p, start ≤ p → p < stop → Memory.bit m p = Memory.bit m' p) :
    readBits m start stop = readBits m' start stop :=
  readRun_congr fun p h1 h2 => h p h1 (by omega)

/-! ### Writing -/

theorem wf_writeRun {m : Memory} (start n value : Nat) (h : Memory.wf m = true) :
    Memory.wf (writeRun m start n value) = true := by
  induction n generalizing value with
  | zero => exact h
  | succ n ih => exact wf_setBit _ _ (ih _)

theorem wf_writeBits {m : Memory} (start stop value : Nat) (h : Memory.wf m = true) :
    Memory.wf (writeBits m start stop value) = true :=
  wf_writeRun start (stop - start) value h

theorem inside_writeRun {nb : Nat} {m : Memory} (start n value : Nat)
    (h : Memory.inside nb m = true) (hn : start + n ≤ 8 * nb) :
    Memory.inside nb (writeRun m start n value) = true := by
  induction n generalizing value with
  | zero => exact h
  | succ n ih => exact inside_setBit _ _ (ih _ (by omega)) (by omega)

theorem inside_writeBits {nb start stop : Nat} {m : Memory} (value : Nat)
    (h : Memory.inside nb m = true) (hs : start ≤ stop) (hn : stop ≤ 8 * nb) :
    Memory.inside nb (writeBits m start stop value) = true :=
  inside_writeRun start (stop - start) value h (by omega)

theorem bit_writeRun {m : Memory} (start n value p : Nat) (h : Memory.wf m = true) :
    Memory.bit (writeRun m start n value) p =
      if start ≤ p ∧ p < start + n then value.testBit (start + n - 1 - p) else Memory.bit m p := by
  induction n generalizing value with
  | zero => simp only [writeRun]; rw [if_neg (by omega)]
  | succ n ih =>
    rw [writeRun, bit_setBit _ _ _ (wf_writeRun _ _ _ h), ih]
    by_cases hp : p = start + n
    · subst hp; simp
    · rw [if_neg hp]
      by_cases hr : start ≤ p ∧ p < start + n
      · rw [if_pos hr, if_pos (by omega), ← Nat.testBit_succ]
        congr 1; omega
      · rw [if_neg hr, if_neg (by omega)]

/-- The write, bit by bit: position `p` of the range gets value bit `end-1-p`, every other bit is kept
(40_codec.md R102). -/
theorem bit_writeBits {m : Memory} {start stop : Nat} (value p : Nat) (h : Memory.wf m = true)
    (hs : start ≤ stop) :
    Memory.bit (writeBits m start stop value) p =
      if start ≤ p ∧ p < stop then value.testBit (stop - 1 - p) else Memory.bit m p := by
  rw [writeBits, bit_writeRun _ _ _ _ h, show start + (stop - start) = stop by omega]

/-- Bytes that do not overlap the range are kept (20_memory.md R47). -/
theorem byte_writeBits_outside {m : Memory} {start stop : Nat} (value x : Nat)
    (h : Memory.wf m = true) (hs : start < stop) (hx : x < start / 8 ∨ (stop - 1) / 8 < x) :
    Memory.byte (writeBits m start stop value) x = Memory.byte m x :=
  byte_eq_of_bits x fun p hp => by
    rw [bit_writeBits value p h hs.le, if_neg]
    rintro ⟨h1, h2⟩
    have := Nat.div_le_div_right (c := 8) h1
    have := Nat.div_le_div_right (c := 8) (show p ≤ stop - 1 by omega)
    omega

/-! ### The range check -/

theorem checkRange_none {nbits start stop : Nat} :
    checkRange nbits start stop = none ↔ start < stop ∧ stop ≤ nbits ∧ stop - start ≤ 128 := by
  unfold checkRange
  split
  · simp; omega
  · split
    · simp; omega
    · split <;> simp <;> omega

theorem checkRange_some {nbits start stop : Nat} {e : FatalError}
    (h : checkRange nbits start stop = some e) :
    (e = .emptyRange ∧ stop ≤ start) ∨
      (e = .outOfBounds ∧ start < stop ∧ nbits < stop) ∨
      (e = .unsupportedWidth ∧ start < stop ∧ stop ≤ nbits ∧ 128 < stop - start) := by
  unfold checkRange at h
  split at h
  · exact .inl ⟨by simpa using h.symm, by omega⟩
  · split at h
    · exact .inr (.inl ⟨by simpa using h.symm, by omega, by omega⟩)
    · split at h
      · exact .inr (.inr ⟨by simpa using h.symm, by omega, by omega, by omega⟩)
      · simp at h

end Sys2Proof.Laws
end

