-- ==== Sys2Proof/Laws/State.lean ====
section
/-! SUPPORT. One lemma per field per update of the state, so that no later proof unfolds an update. -/

namespace Sys2Proof.Laws

open Sys2Proof.Machine

@[simp] theorem emit_cfg (x : Status) (d : Value) (s : State) : (emit x d s).cfg = s.cfg := rfl
@[simp] theorem emit_buf (x : Status) (d : Value) (s : State) : (emit x d s).buf = s.buf := rfl
@[simp] theorem emit_flt (x : Status) (d : Value) (s : State) : (emit x d s).flt = s.flt := rfl
@[simp] theorem emit_inFlight (x : Status) (d : Value) (s : State) : (emit x d s).inFlight = s.inFlight := rfl
@[simp] theorem emit_host (x : Status) (d : Value) (s : State) : (emit x d s).host = s.host := rfl
@[simp] theorem emit_responses (x : Status) (d : Value) (s : State) : (emit x d s).responses = s.responses ++ [{ status := x, data := d }] := rfl
@[simp] theorem emit_hostErr (x : Status) (d : Value) (s : State) : (emit x d s).hostErr = (s.hostErr || isHostError x) := rfl

@[simp] theorem setBuf_cfg (m : Memory) (s : State) : (setBuf m s).cfg = s.cfg := rfl
@[simp] theorem setBuf_buf (m : Memory) (s : State) : (setBuf m s).buf = m := rfl
@[simp] theorem setBuf_flt (m : Memory) (s : State) : (setBuf m s).flt = s.flt := rfl
@[simp] theorem setBuf_inFlight (m : Memory) (s : State) : (setBuf m s).inFlight = s.inFlight := rfl
@[simp] theorem setBuf_host (m : Memory) (s : State) : (setBuf m s).host = s.host := rfl
@[simp] theorem setBuf_responses (m : Memory) (s : State) : (setBuf m s).responses = s.responses := rfl
@[simp] theorem setBuf_hostErr (m : Memory) (s : State) : (setBuf m s).hostErr = s.hostErr := rfl

@[simp] theorem latch_cfg (e : FatalError) (s : State) : (latch e s).cfg = s.cfg := rfl
@[simp] theorem latch_buf (e : FatalError) (s : State) : (latch e s).buf = s.buf := rfl
@[simp] theorem latch_flt (e : FatalError) (s : State) : (latch e s).flt = some e := rfl
@[simp] theorem latch_inFlight (e : FatalError) (s : State) : (latch e s).inFlight = s.inFlight := rfl
@[simp] theorem latch_host (e : FatalError) (s : State) : (latch e s).host = s.host := rfl
@[simp] theorem latch_responses (e : FatalError) (s : State) : (latch e s).responses = s.responses := rfl
@[simp] theorem latch_hostErr (e : FatalError) (s : State) : (latch e s).hostErr = s.hostErr := rfl

@[simp] theorem unitReset_cfg (s : State) : (unitReset s).cfg = s.cfg := rfl
@[simp] theorem unitReset_buf (s : State) : (unitReset s).buf = [] := rfl
@[simp] theorem unitReset_flt (s : State) : (unitReset s).flt = none := rfl
@[simp] theorem unitReset_inFlight (s : State) : (unitReset s).inFlight = none := rfl
@[simp] theorem unitReset_host (s : State) : (unitReset s).host = s.host := rfl
@[simp] theorem unitReset_responses (s : State) : (unitReset s).responses = s.responses := rfl
@[simp] theorem unitReset_hostErr (s : State) : (unitReset s).hostErr = s.hostErr := rfl

@[simp] theorem present_cfg (w : Nat) (s : State) : (present w s).cfg = s.cfg := rfl
@[simp] theorem present_buf (w : Nat) (s : State) : (present w s).buf = s.buf := rfl
@[simp] theorem present_flt (w : Nat) (s : State) : (present w s).flt = s.flt := rfl
@[simp] theorem present_inFlight (w : Nat) (s : State) : (present w s).inFlight = none := rfl
@[simp] theorem present_host (w : Nat) (s : State) : (present w s).host = .command w :: s.host := rfl
@[simp] theorem present_responses (w : Nat) (s : State) : (present w s).responses = s.responses := rfl
@[simp] theorem present_hostErr (w : Nat) (s : State) : (present w s).hostErr = s.hostErr := rfl

@[simp] theorem resetOf_cfg (c : Config) : (State.resetOf c).cfg = c := rfl
@[simp] theorem resetOf_buf (c : Config) : (State.resetOf c).buf = [] := rfl
@[simp] theorem resetOf_flt (c : Config) : (State.resetOf c).flt = none := rfl
@[simp] theorem resetOf_inFlight (c : Config) : (State.resetOf c).inFlight = none := rfl
@[simp] theorem resetOf_host (c : Config) : (State.resetOf c).host = [] := rfl
@[simp] theorem resetOf_responses (c : Config) : (State.resetOf c).responses = [] := rfl
@[simp] theorem resetOf_hostErr (c : Config) : (State.resetOf c).hostErr = false := rfl

end Sys2Proof.Laws
end

