-- ==== Sys2Proof/Laws/Commands.lean ====
section
/-! SUPPORT. What a command can do, said once: every command answers a next state of one of four
shapes. Later proofs cite these lemmas instead of unfolding the commands. -/

namespace Sys2Proof.Laws

open Sys2Proof.Machine

/-- The four ways a command changes the state: it only responds; it latches a fatal error; it writes
one checked range; it zero-fills. -/
def CommandEffect (s t : State) : Prop :=
  (∃ x d, (∀ e, x ≠ .fatal e) ∧ t = emit x d s) ∨
  (∃ e, s.flt = none ∧ t = emit (.fatal e) 0#128 (latch e s)) ∨
  (∃ start stop v, s.flt = none ∧ checkRange s.cfg.nbits start stop = none ∧
    t = emit .ok 0#128 (setBuf (writeBits s.buf start stop v) s)) ∨
  (s.flt = none ∧ t = emit .ok 0#128 (setBuf (Memory.zeroFill s.cfg.nb s.buf) s))

theorem unlessFaulted_none {s : State} (h : s.flt = none) (body : StepOutcome) :
    unlessFaulted s body = body := by
  simp [unlessFaulted, h]

theorem unlessFaulted_some {s : State} {e : FatalError} (h : s.flt = some e) (body : StepOutcome) :
    unlessFaulted s body = refuseFaulted e s := by
  simp [unlessFaulted, h]

/-- A faulted unit only responds; a unit that is not runs the body. -/
theorem effect_unlessFaulted {s : State} {body : StepOutcome}
    (h : s.flt = none → ∃ t, body = .next t ∧ CommandEffect s t) :
    ∃ t, unlessFaulted s body = .next t ∧ CommandEffect s t := by
  cases hf : s.flt with
  | none => rw [unlessFaulted_none hf]; exact h hf
  | some e =>
    rw [unlessFaulted_some hf]
    exact ⟨_, rfl, .inl ⟨_, _, by simp, rfl⟩⟩

theorem effect_respond (v : Nat) (s : State) :
    ∃ t, respond v s = .next t ∧ CommandEffect s t :=
  ⟨_, rfl, .inl ⟨_, _, by simp, rfl⟩⟩

theorem effect_raise {s : State} (e : FatalError) (h : s.flt = none) :
    ∃ t, raise e s = .next t ∧ CommandEffect s t :=
  ⟨_, rfl, .inr (.inl ⟨e, h, rfl⟩)⟩

theorem effect_refuseBadOperand (s : State) :
    ∃ t, refuseBadOperand s = .next t ∧ CommandEffect s t :=
  ⟨_, rfl, .inl ⟨_, _, by simp, rfl⟩⟩

theorem effect_failInvalidDiscriminant (s : State) :
    ∃ t, failInvalidDiscriminant s = .next t ∧ CommandEffect s t :=
  ⟨_, rfl, .inl ⟨_, _, by simp, rfl⟩⟩

theorem effect_write {s : State} {start stop : Nat} (v : Nat) (h : s.flt = none)
    (hr : checkRange s.cfg.nbits start stop = none) :
    ∃ t, respond 0 (setBuf (writeBits s.buf start stop v) s) = .next t ∧ CommandEffect s t :=
  ⟨_, rfl, .inr (.inr (.inl ⟨start, stop, v, h, hr, rfl⟩))⟩

theorem execRdbits_effect (start stop : Nat) (s : State) :
    ∃ t, execRdbits start stop s = .next t ∧ CommandEffect s t :=
  effect_unlessFaulted fun h => by
    cases hr : checkRange s.cfg.nbits start stop with
    | some e => exact effect_raise e h
    | none => exact effect_respond _ s

theorem execWrbits_effect (start stop : Nat) (value : Value) (s : State) :
    ∃ t, execWrbits start stop value s = .next t ∧ CommandEffect s t :=
  effect_unlessFaulted fun h => by
    cases hr : checkRange s.cfg.nbits start stop with
    | some e => exact effect_raise e h
    | none => exact effect_write _ h hr

theorem execGet_effect (f : Nat) (s : State) :
    ∃ t, execGet f s = .next t ∧ CommandEffect s t :=
  effect_unlessFaulted fun h => by
    cases fieldAt s.cfg f with
    | none => exact effect_refuseBadOperand s
    | some fld =>
      simp only
      cases checkRange s.cfg.nbits fld.off (fieldStop fld) with
      | some e => exact effect_raise e h
      | none =>
        simp only
        cases fromContainer fld.kind (readBits s.buf fld.off (fieldStop fld)) with
        | ok t => exact effect_respond t s
        | error e =>
          cases e with
          | malformedRepr => exact effect_raise _ h
          | invalidDiscriminant => exact effect_failInvalidDiscriminant s

theorem execSet_effect (f : Nat) (v : Value) (s : State) :
    ∃ t, execSet f v s = .next t ∧ CommandEffect s t :=
  effect_unlessFaulted fun h => by
    cases fieldAt s.cfg f with
    | none => exact effect_refuseBadOperand s
    | some fld =>
      simp only
      cases toContainer fld.kind fld.cwid v.toNat with
      | none => exact effect_refuseBadOperand s
      | some c =>
        simp only
        cases hr : checkRange s.cfg.nbits fld.off (fieldStop fld) with
        | some e => exact effect_raise e h
        | none => exact effect_write _ h hr

theorem execNew_effect (s : State) : ∃ t, execNew s = .next t ∧ CommandEffect s t :=
  effect_unlessFaulted fun h => ⟨_, rfl, .inr (.inr (.inr ⟨h, rfl⟩))⟩

/-- Every command answers a next state, with one of the four effects. -/
theorem exec_effect (i : Instr) (s : State) : ∃ t, exec i s = .next t ∧ CommandEffect s t := by
  cases i with
  | rdbits start stop => exact execRdbits_effect start stop s
  | wrbits start stop value => exact execWrbits_effect start stop value s
  | get f => exact execGet_effect f s
  | set f t => exact execSet_effect f t s
  | new => exact execNew_effect s

/-- Every command word, legal or not, answers a next state, with one of the four effects. -/
theorem runCommand_effect (w : Nat) (s : State) :
    ∃ t, runCommand w s = .next t ∧ CommandEffect s t := by
  unfold runCommand
  cases decode s.cfg.pw w with
  | ok i => exact exec_effect i s
  | error e => exact effect_unlessFaulted fun _ => ⟨_, rfl, .inl ⟨_, _, by simp, rfl⟩⟩

/-- Whatever a command's effect, it gives one response and leaves the configuration, the command in
flight and the host's inputs alone. -/
theorem CommandEffect.frame {s t : State} (h : CommandEffect s t) :
    t.cfg = s.cfg ∧ t.inFlight = s.inFlight ∧ t.host = s.host ∧
      ∃ r, t.responses = s.responses ++ [r] ∧ t.hostErr = (s.hostErr || isHostError r.status) := by
  rcases h with ⟨x, d, -, rfl⟩ | ⟨e, -, rfl⟩ | ⟨a, b, v, -, -, rfl⟩ | ⟨-, rfl⟩ <;>
    exact ⟨rfl, rfl, rfl, _, rfl, rfl⟩

/-- Whatever a command's effect, the buffer keeps its canonical form and its size. -/
theorem CommandEffect.buffer {s t : State} (h : CommandEffect s t) (hw : Memory.wf s.buf = true)
    (hi : Memory.inside s.cfg.nb s.buf = true) :
    Memory.wf t.buf = true ∧ Memory.inside s.cfg.nb t.buf = true := by
  rcases h with ⟨x, d, -, rfl⟩ | ⟨e, -, rfl⟩ | ⟨a, b, v, -, hr, rfl⟩ | ⟨-, rfl⟩
  · exact ⟨hw, hi⟩
  · exact ⟨hw, hi⟩
  · obtain ⟨h1, h2, -⟩ := checkRange_none.1 hr
    exact ⟨wf_writeBits _ _ _ hw, inside_writeBits _ hi h1.le h2⟩
  · rw [emit_buf, setBuf_buf, zeroFill_inside hw hi]
    exact ⟨rfl, rfl⟩

/-- The inputs a step takes: what `advance` does, by cases. -/
theorem advance_cases (s : State) :
    (∃ rest, s.host = .reset :: rest ∧ advance s = .next (unitReset { s with host := rest })) ∨
    (∃ v, s.host.head? ≠ some .reset ∧ s.inFlight = some v ∧
      advance s = runCommand v { s with inFlight := none }) ∨
    (∃ w rest, s.host = .command w :: rest ∧ s.inFlight = none ∧
      advance s = runCommand w { s with host := rest }) ∨
    (s.host = [] ∧ s.inFlight = none ∧ advance s = .next s) := by
  unfold advance
  cases hh : s.host with
  | nil => cases hf : s.inFlight <;> simp
  | cons x rest =>
    cases x with
    | reset => simp
    | command w => cases hf : s.inFlight <;> simp

end Sys2Proof.Laws
end

