-- ==== Sys2Proof/Laws/PerInstr.lean ====
section
/-! SUPPORT. Laws about every command as syntax, one lemma per constructor. -/

namespace Sys2Proof.Laws

/-- A command word whose operands fit their fields is below `2^(8 + 2*PW + 128)`. -/
theorem commandWord_lt {pw op a b : Nat} (v : Value) (hop : op < 2 ^ 8) (ha : a < 2 ^ pw)
    (hb : b < 2 ^ pw) : commandWord pw op a b v < 2 ^ commandWidth pw := by
  have hv := v.isLt
  have h1 : op * 2 ^ pw + a < 2 ^ (8 + pw) := by
    rw [pow_add]
    calc op * 2 ^ pw + a < op * 2 ^ pw + 2 ^ pw := by omega
      _ = (op + 1) * 2 ^ pw := by ring
      _ ≤ 2 ^ 8 * 2 ^ pw := Nat.mul_le_mul_right _ hop
  have h2 : (op * 2 ^ pw + a) * 2 ^ pw + b < 2 ^ (8 + pw + pw) := by
    rw [pow_add _ (8 + pw)]
    calc (op * 2 ^ pw + a) * 2 ^ pw + b < (op * 2 ^ pw + a) * 2 ^ pw + 2 ^ pw := by omega
      _ = (op * 2 ^ pw + a + 1) * 2 ^ pw := by ring
      _ ≤ 2 ^ (8 + pw) * 2 ^ pw := Nat.mul_le_mul_right _ h1
  have h3 : commandWidth pw = 8 + pw + pw + 128 := by unfold commandWidth; omega
  rw [h3, pow_add _ (8 + pw + pw)]
  unfold commandWord
  calc ((op * 2 ^ pw + a) * 2 ^ pw + b) * 2 ^ 128 + v.toNat
      < ((op * 2 ^ pw + a) * 2 ^ pw + b) * 2 ^ 128 + 2 ^ 128 := by omega
    _ = ((op * 2 ^ pw + a) * 2 ^ pw + b + 1) * 2 ^ 128 := by ring
    _ ≤ 2 ^ (8 + pw + pw) * 2 ^ 128 := Nat.mul_le_mul_right _ h2

end Sys2Proof.Laws

namespace Sys2Proof.Laws.EncodeFits

/-- The encoding of a well-formed command has no bit above the command word's `8 + 2*PW + 128`
(30_encoding.md R70). -/
def Statement (i : Instr) : Prop :=
  ∀ pw, i.wellFormed pw = true → encode pw i < 2 ^ commandWidth pw

theorem rdbits (start stop : Nat) : Statement (.rdbits start stop) := fun pw h => by
  simp only [Instr.wellFormed, fitsPosition, Bool.and_eq_true, decide_eq_true_eq] at h
  exact commandWord_lt _ (by decide) h.1 h.2

theorem wrbits (start stop : Nat) (value : Value) : Statement (.wrbits start stop value) :=
  fun pw h => by
    simp only [Instr.wellFormed, fitsPosition, Bool.and_eq_true, decide_eq_true_eq] at h
    exact commandWord_lt _ (by decide) h.1 h.2

theorem get (f : Nat) : Statement (.get f) := fun pw h => by
  simp only [Instr.wellFormed, fitsPosition, decide_eq_true_eq] at h
  exact commandWord_lt _ (by decide) h (by positivity)

theorem set (f : Nat) (t : Value) : Statement (.set f t) := fun pw h => by
  simp only [Instr.wellFormed, fitsPosition, decide_eq_true_eq] at h
  exact commandWord_lt _ (by decide) h (by positivity)

theorem new : Statement .new := fun pw _ =>
  commandWord_lt _ (by decide) (by positivity) (by positivity)

end Sys2Proof.Laws.EncodeFits
end

