-- ==== Sys2Proof/Tests/Slice0.lean ====
section
/-! SUPPORT. Tests, each with its expected result from the spec's own vectors (95_test_vectors.md, ids
V, P, S and section 2.5) or from a rule, and a witness that the hypotheses of each obligation can be
met together. -/

namespace Sys2Proof.Tests

open Sys2Proof.Machine Sys2Proof.Safety

/-! ### The configurations of 95_test_vectors.md -/

/-- A buffer from its bytes, the first at index `i`. -/
def bytesFrom (i : Nat) : List Nat → Memory
  | [] => []
  | b :: bs => Memory.setByte (bytesFrom (i + 1) bs) i (BitVec.ofNat 8 b)

/-- A unit of configuration `c` with the given buffer bytes and latch. -/
def unitOf (c : Config) (bytes : List Nat) (flt : Option FatalError := none) : State :=
  { State.resetOf c with buf := bytesFrom 0 bytes, flt }

/-- One field `prim(24)`. -/
def one24 : Config := ⟨32, 3, [⟨['x'], .prim 24, 24, .w32, 0⟩]⟩

/-- Fields `prim(64), prim(64), prim(8)`: 17 bytes. -/
def wide : Config :=
  ⟨32, 17, [⟨['p'], .prim 64, 64, .w64, 0⟩, ⟨['q'], .prim 64, 64, .w64, 64⟩,
    ⟨['r'], .prim 8, 8, .w8, 128⟩]⟩

/-- K2: `bool, enum([2, 0, 3, 1]), prim(5), prim(16)`. -/
def k2 : Config :=
  ⟨32, 3, [⟨['b'], .bool, 1, .w8, 0⟩, ⟨['e'], .enum [2, 0, 3, 1], 2, .w8, 1⟩,
    ⟨['p'], .prim 5, 5, .w8, 3⟩, ⟨['q'], .prim 16, 16, .w16, 8⟩]⟩

/-- Z: `prim(0), prim(8), enum([0])`. -/
def zeroWidth : Config :=
  ⟨32, 1, [⟨['a'], .prim 0, 0, .w8, 0⟩, ⟨['b'], .prim 8, 8, .w8, 0⟩, ⟨['c'], .enum [0], 0, .w8, 8⟩]⟩

/-- The configuration of section 2.4's last paragraph, which is not well formed. -/
def repeated : Config :=
  ⟨32, 1, [⟨['e'], .enum [0, 0, 1, 1], 2, .w8, 0⟩, ⟨['p'], .prim 6, 6, .w8, 2⟩]⟩

/-- The buffer `03 14 .. 13` of the wide vectors. -/
def wideBytes : List Nat :=
  [0x03, 0x14, 0x25, 0x36, 0x47, 0x58, 0x69, 0x7A, 0x8B, 0x9C, 0xAD, 0xBE, 0xCF, 0xE0, 0xF1, 0x02, 0x13]

/-- What a vector shows: the bytes of the buffer, the response words and the latch after one command
word. -/
def shown (c : Config) : StepOutcome → Option (List Byte × List ResponseWord × Byte)
  | .next t => some (Memory.wire c.nb t.buf, t.responses.map responseWord, fltByte t.flt)
  | .fault _ => none
  | .refused _ => none

/-- One step of a unit on a 200-bit command word. -/
def run (c : Config) (bytes : List Nat) (w : Nat) (flt : Option FatalError := none) :
    Option (List Byte × List ResponseWord × Byte) :=
  shown c (step (State.withFetchWord (unitOf c bytes flt) 200 w))

/-! ### Well-formedness refuses ill-formed terms -/

/-- 30 R71: the largest position of 32 bits fits and the next does not, in each operand. -/
theorem test_wellFormed_rdbits :
    Instr.wellFormed 32 (.rdbits 0 0xFFFFFFFF) = true ∧
    Instr.wellFormed 32 (.rdbits 0x100000000 0) = false ∧
    Instr.wellFormed 32 (.rdbits 0 0x100000000) = false := by decide

theorem test_wellFormed_wrbits :
    Instr.wellFormed 32 (.wrbits 0x100000000 0 0) = false ∧
    Instr.wellFormed 32 (.wrbits 0 0x100000000 0) = false := by decide

theorem test_wellFormed_get_set :
    Instr.wellFormed 32 (.get 0x100000000) = false ∧
    Instr.wellFormed 32 (.set 0x100000000 0) = false ∧ Instr.wellFormed 0 .new = true := by decide

/-- 42 R167: each of the six conditions refuses a configuration that breaks it. -/
theorem test_configWf_conditions :
    configWf ⟨32, 9, [⟨['x'], .prim 72, 72, .w128, 0⟩]⟩ = false ∧
    configWf repeated = false ∧
    configWf ⟨32, 1, [⟨['x'], .prim 7, 8, .w8, 0⟩]⟩ = false ∧
    configWf ⟨32, 1, [⟨['x'], .prim 8, 8, .w16, 0⟩]⟩ = false ∧
    configWf ⟨32, 1, [⟨['x'], .prim 8, 8, .w8, 1⟩]⟩ = false ∧
    configWf ⟨32, 2, [⟨['x'], .prim 8, 8, .w8, 0⟩]⟩ = false ∧
    configWf ⟨3, 1, [⟨['x'], .prim 8, 8, .w8, 0⟩]⟩ = false := by decide

/-- 95 section 2.3: the configurations used there, and the one with no fields, are admitted. -/
theorem test_configWf_admits :
    configWf Config.worked = true ∧ configWf k2 = true ∧ configWf zeroWidth = true ∧
    configWf wide = true ∧ configWf ⟨32, 0, []⟩ = true := by decide

/-! ### Decoding: words written out in 95_test_vectors.md -/

/-- V71, V66. -/
theorem test_decode_rdbits :
    decode 32 0x01000000090000000500000000000000000000000000000000 = .ok (.rdbits 9 5) := by decide

/-- V72: `WRBITS 16, 32, 0xFFFF`. -/
theorem test_decode_wrbits :
    decode 32 0x0200000010000000200000000000000000000000000000FFFF = .ok (.wrbits 16 32 0xFFFF) := by
  decide

/-- V80: `GET 4`. -/
theorem test_decode_get :
    decode 32 0x03000000040000000000000000000000000000000000000000 = .ok (.get 4) := by decide

/-- V85: `SET 0, 0x10000000000000000`. -/
theorem test_decode_set :
    decode 32 0x04000000000000000000000000000000010000000000000000 =
      .ok (.set 0 0x10000000000000000) := by decide

/-- P1 step 1: `NEW`. -/
theorem test_decode_new :
    decode 32 0x05000000000000000000000000000000000000000000000000 = .ok .new := by decide

/-- V91, V93: the all-zero word and opcode 0xFF. -/
theorem test_decode_illegal :
    decode 32 0 = .error (.illegalOpcode 0) ∧
    decode 32 0xFF000000000000000000000000000000000000000000000000 = .error (.illegalOpcode 0xFF) := by
  decide

/-- 30 R70 with `PW = 8`: a 152-bit word `OP A B V` of `02 04 0D` and 32 digits. -/
theorem test_decode_narrow :
    decode 8 0x02040D000000000000000000000000000001FF = .ok (.wrbits 4 13 0x1FF) := by decide

/-- P1 steps 2 and 10: the encoder gives the words written out. -/
theorem test_encode :
    encode 32 (.set 1 5) = 0x04000000010000000000000000000000000000000000000005 ∧
    encode 32 (.rdbits 0 32) = 0x01000000000000002000000000000000000000000000000000 := by decide

/-! ### One step of each command -/

set_option maxRecDepth 4000 in
/-- V14: 128 bits, unaligned, a 17-byte window. -/
theorem test_rdbits_window :
    run wide wideBytes (encode 32 (.rdbits 3 131)) =
      some (wideBytes.map (BitVec.ofNat 8), [0x0018A129B23AC34BD45CE56DF67F078810], 0) := by decide

/-- V78: too wide and out of bounds; OutOfBounds wins. -/
theorem test_rdbits_order :
    run wide wideBytes 0x01000000000000008900000000000000000000000000000000 =
      some (wideBytes.map (BitVec.ofNat 8), [0x0200000000000000000000000000000000], 2) := by decide

/-- V25: partial head, whole interior byte, partial tail. -/
theorem test_wrbits_mixed :
    run one24 [0xA5, 0x5A, 0xC3] 0x02000000040000001500000000000000000000000000012345 =
      some ([0xA9, 0x1A, 0x2B], [0], 0) := by decide

/-- V32: a 128-bit value cut to three bits, the bits already there. -/
theorem test_wrbits_truncates :
    run one24 [0xA5, 0x5A, 0xC3] (encode 32 (.wrbits 1 4 (BitVec.ofNat 128 (2 ^ 127 + 2)))) =
      some ([0xA5, 0x5A, 0xC3], [0], 0) := by decide

/-- V55: raw `01` is discriminant 1, the variant with index 3. -/
theorem test_get_enum :
    run k2 [0xBF, 0xBE, 0xEF] (encode 32 (.get 1)) = some ([0xBF, 0xBE, 0xEF], [3], 0) := by decide

/-- V87: a zero-width field latches EmptyRange; and section 2.4, last paragraph: the InvalidDiscriminant
branch, on the command alone since no unit of that configuration exists. -/
theorem test_get_errors :
    run zeroWidth [0x77] 0x03000000000000000000000000000000000000000000000000 =
      some ([0x77], [0x0100000000000000000000000000000000], 1) ∧
    shown repeated (exec (.get 0) (unitOf repeated [0x80])) =
      some ([0x80], [0x0500000000000000000000000000000000], 0) := by decide

/-- V51: variant 0 has discriminant 2. -/
theorem test_set_enum :
    run k2 [0x80, 0, 0] (encode 32 (.set 1 0)) = some ([0xC0, 0, 0], [0], 0) := by decide

/-- V89: BadOperand is tested before EmptyRange. -/
theorem test_set_order :
    run zeroWidth [0x77] 0x04000000020000000000000000000000000000000000000001 =
      some ([0x77], [0x0600000000000000000000000000000000], 0) := by decide

/-- V48. -/
theorem test_new_zero_fills :
    run Config.worked [0xDF, 0xAB, 0xCD, 0xEF] 0x05000000000000000000000000000000000000000000000000 =
      some ([0, 0, 0, 0], [0], 0) := by decide

/-- V95: NEW does not clear the latch. -/
theorem test_new_faulted :
    run one24 [0xA5, 0x5A, 0xC3] 0x05000000000000000000000000000000000000000000000000
        (some .outOfBounds) =
      some ([0xA5, 0x5A, 0xC3], [0x0800000000000000000000000000000002], 2) := by decide

/-- V92, V96: an illegal opcode, and Faulted before it. -/
theorem test_illegal :
    run one24 [0xA5, 0x5A, 0xC3] 0x06000000010000000200000000000000000000000000000003 =
      some ([0xA5, 0x5A, 0xC3], [0x0700000000000000000000000000000000], 0) ∧
    run one24 [0xA5, 0x5A, 0xC3] 0x06000000000000000000000000000000000000000000000000
        (some .unsupportedWidth) =
      some ([0xA5, 0x5A, 0xC3], [0x0800000000000000000000000000000003], 3) := by decide

/-! ### The datapath, worked through in 95_test_vectors.md sections 2.1 and 2.2 -/

/-- V14's columns, and the mask and chunk of byte 1 of `RDBITS 4, 13`. -/
theorem test_offsets :
    (firstByte 3, lastByte 131, headSkip 3, tailExtent 131, windowBytes 3 131, windowShift 131) =
      (0, 16, 3, 3, 17, 5) ∧
    coverMask 4 13 1 = 0xF8 ∧ readChunk (bytesFrom 0 [0xA5, 0x5A, 0xC3]) 4 13 1 = 0x0B := by decide

/-- The window update of `WRBITS 4, 21, 0x12345`. -/
theorem test_window_update :
    windowUpdate (bytesFrom 0 [0xA5, 0x5A, 0xC3]) 4 21 0x12345 = 0xA91A2B := by decide

/-! ### Configuration functions: 95_test_vectors.md section 2.5 -/

theorem test_bestFit :
    bestFit 0 = .ok .w8 ∧ bestFit 8 = .ok .w8 ∧ bestFit 9 = .ok .w16 ∧ bestFit 64 = .ok .w64 ∧
    bestFit 65 = .ok .w128 ∧ bestFit 129 = .error .unsupportedWidth := by decide

theorem test_enum_derivation :
    deriveEnum [.explicit 3, .bare, .bare, .explicit 0] =
      .ok ⟨.enum [3, 1, 2, 0], 2, .w8⟩ ∧
    deriveEnum [.explicit 1, .bare, .bare, .bare] = .error [.duplicateDiscriminant] ∧
    deriveEnum [.explicit (-1), .bare, .bare, .bare] = .error [.discriminantOverflow] ∧
    deriveEnum [] = .error [.nonPowerOfTwoVariantCount] ∧
    deriveEnum [.bare, .bare, .bare, .bare] = .ok ⟨.enum [0, 1, 2, 3], 2, .w8⟩ ∧
    deriveEnum [.bare, .bare, .bare] = .error [.nonPowerOfTwoVariantCount] ∧
    deriveEnum [.explicit 0, .explicit 1, .explicit 2, .explicit 5] =
      .error [.discriminantOverflow] ∧
    deriveEnum [.explicit 1] = .error [.discriminantOverflow] := by decide

/-- 42 R154, R166: an enum that fails to derive is no registered type, and a negative discriminant
overflows whatever the count. -/
theorem test_unregistered_enum :
    specifierOf (.enum [.bare, .bare, .bare]) =
      .error [.nonPowerOfTwoVariantCount, .unknownSpecifier] ∧
    deriveEnum [.explicit (-1), .bare, .bare] =
      .error [.nonPowerOfTwoVariantCount, .discriminantOverflow] ∧
    specifierOf .other = .error [.unknownSpecifier] := by decide

theorem test_planner :
    elaborate 32 [⟨['a'], .prim 1, none⟩, ⟨['b'], .prim 3, none⟩, ⟨['c'], .prim 5, none⟩] =
      .error [.misalignedLayout] ∧
    elaborate 32 [⟨['a'], .prim 24, some 16⟩] = .error [.widthMismatch ['a'] 16 24] ∧
    elaborate 32 [⟨['b'], .bool, some 1⟩,
        ⟨['e'], .enum [.explicit 2, .explicit 0, .explicit 3, .explicit 1], none⟩,
        ⟨['p'], .prim 5, none⟩, ⟨['q'], .prim 16, none⟩] = .ok k2 ∧
    elaborate 32 [⟨['a'], .prim 65, none⟩] = .error [.unknownSpecifier] := by decide

/-! ### Command text: 30_encoding.md R80, R81 -/

theorem test_assemble :
    assemble Config.worked
        "new ; zero-fill\n\n SET b, 0x5\nwrbits 4, 0b1_101, 511\nRDBYTE 1\nget 1".toList =
      .ok [0x05000000000000000000000000000000000000000000000000,
        0x04000000010000000000000000000000000000000000000005,
        0x02000000040000000D000000000000000000000000000001FF,
        0x01000000080000001000000000000000000000000000000000,
        0x03000000010000000000000000000000000000000000000000] := by decide

theorem test_assemble_refuses :
    assemble Config.worked "NEW 1".toList = .error .badOperands ∧
    assemble Config.worked "DUMP".toList = .error .unknownMnemonic ∧
    assemble Config.worked "GET zz".toList = .error .unknownField ∧
    assemble Config.worked "RDBITS 0, 0x100000000".toList = .error .operandTooWide := by decide

/-! ### Ports and handshake: 30_encoding.md R79, 70_reset_and_hazards.md R230 -/

/-- `NEW` accepted, two edges without an answer, the response, and then a reset that drops an accepted
command. -/
theorem test_edges :
    (match runEdges State.reset
        [(⟨false, true, encode 32 .new⟩, false), (⟨false, true, 0⟩, false), (⟨false, true, 0⟩, true),
         (⟨false, true, 0⟩, true), (⟨true, true, 0⟩, true), (⟨false, false, 0⟩, true)] with
      | .next r => some (r.responses, cmdReady r.state, fltByte r.state.flt)
      | .fault _ => none
      | .refused _ => none) = some ([0], true, 0) := by decide

/-! ### Witnesses: for each obligation with hypotheses, values that meet them together -/

/-- The unit of V1: `A5 5A C3`. -/
def s24 : State := unitOf one24 [0xA5, 0x5A, 0xC3]

/-- The unit of V95: the same, with OutOfBounds latched. -/
def f24 : State := unitOf one24 [0xA5, 0x5A, 0xC3] (some .outOfBounds)

/-- The unit of V13: 17 bytes. -/
def s136 : State := unitOf wide wideBytes

/-- The unit of V55. -/
def sK2 : State := unitOf k2 [0xBF, 0xBE, 0xEF]

/-- The unit of V87. -/
def sZ : State := unitOf zeroWidth [0x77]

theorem witness_DecodeInvertsEncode :
    Instr.wellFormed 32 (.rdbits 0xFFFFFFFF 0xFFFFFFFF) = true ∧
    Instr.wellFormed 32 (.wrbits 0xFFFFFFFF 0 (BitVec.allOnes 128)) = true ∧
    Instr.wellFormed 32 (.get 0xFFFFFFFF) = true ∧
    Instr.wellFormed 32 (.set 0xFFFFFFFF (BitVec.allOnes 128)) = true ∧
    Instr.wellFormed 32 .new = true := by decide

/-- The hypotheses of `IgnoredFieldsHaveNoEffect` on two words. -/
def agree (pw w w' : Nat) : Bool :=
  decide (commandOp pw w = commandOp pw w') &&
  decide (commandOp pw w ∈ [1, 2, 3, 4] → commandA pw w = commandA pw w') &&
  decide (commandOp pw w ∈ [1, 2] → commandB pw w = commandB pw w') &&
  decide (commandOp pw w ∈ [2, 4] → commandV w = commandV w')

theorem witness_IgnoredFieldsHaveNoEffect :
    agree 32 (commandWord 32 1 4 13 0) (commandWord 32 1 4 13 7) = true ∧
    agree 32 (commandWord 32 2 4 13 7) (commandWord 32 2 4 13 7) = true ∧
    agree 32 (commandWord 32 3 1 0 0) (commandWord 32 3 1 9 9) = true ∧
    agree 32 (commandWord 32 4 1 0 5) (commandWord 32 4 1 9 5) = true ∧
    agree 32 (commandWord 32 5 0 0 0) (commandWord 32 5 9 9 9) = true ∧
    agree 32 (commandWord 32 6 0 0 0) (commandWord 32 6 9 9 9) = true := by decide

/-- Its second clause: source lines that have a word, for the opcodes 1, 3, 4, 5 it names. -/
theorem witness_IgnoredFieldsHaveNoEffect_words :
    sourceWord Config.worked (.rdbits 4 13) = .ok (commandWord 32 1 4 13 0) ∧
    sourceWord Config.worked (.get 3) = .ok (commandWord 32 3 3 0 0) ∧
    sourceWord Config.worked (.set 1 5) = .ok (commandWord 32 4 1 0 5) ∧
    sourceWord Config.worked .new = .ok (commandWord 32 5 0 0 0) := by decide

theorem witness_IllegalOpcodesAreRefused :
    commandOp s24.cfg.pw 0 ∉ [1, 2, 3, 4, 5] ∧ s24.flt = none ∧
    commandOp f24.cfg.pw (commandWord 32 6 0 0 0) ∉ [1, 2, 3, 4, 5] ∧
    f24.flt = some .outOfBounds := by decide

theorem witness_StepRunsTheDecodedCommand :
    configWf s24.cfg = true ∧ (present (encode 32 .new) s24).inFlight = none ∧
    (present (encode 32 .new) s24).host = [.command (encode 32 .new)] ∧
    decode 32 (encode 32 .new) = .ok .new := by decide

theorem witness_StepRunsTheDecodedCommand_inFlight :
    let s : State := { s24 with inFlight := some (encode 32 (.get 0)), host := [.command 0] }
    configWf s.cfg = true ∧ s.inFlight = some (encode 32 (.get 0)) ∧ s.host.head? ≠ some .reset ∧
    decode s.cfg.pw (encode 32 (.get 0)) = .ok (.get 0) := by decide

theorem witness_StepIsTotal :
    configWf s24.cfg = true ∧ configWf (unitOf repeated [0x80]).cfg = false ∧
    ({ f24 with host := [.reset, .command 0] } : State).host = .reset :: [.command 0] := by decide

theorem witness_FaultedUnitRefusesEverything : f24.flt = some .outOfBounds := by decide

theorem witness_LatchKeepsTheFirstFatalError :
    ∃ t, step (present (encode 32 (.rdbits 5 5)) s24) = .next t ∧
      (present (encode 32 (.rdbits 5 5)) s24).flt = none ∧ t.flt = some .emptyRange :=
  ⟨_, rfl, rfl, rfl⟩

/-- The last clause, on a presented command and on an idle unit. -/
theorem witness_LatchKeepsTheFirstFatalError_faulted :
    (∃ t, step (present 0 f24) = .next t ∧ (present 0 f24).flt = some .outOfBounds ∧
      (present 0 f24).host.head? ≠ some .reset) ∧
    (∃ t, step f24 = .next t ∧ f24.flt = some .outOfBounds ∧ f24.host.head? ≠ some .reset) :=
  ⟨⟨_, rfl, rfl, by decide⟩, ⟨_, rfl, rfl, by decide⟩⟩

theorem witness_ResetStateIsZero : 0 < Config.worked.nb ∧ 3 < Config.worked.nb := by decide

theorem witness_ResetClearsTheUnit :
    configWf f24.cfg = true ∧ (PinsIn.mk true true 0).rst = true := by decide

theorem witness_NewAndResetAgree : Inv s24 ∧ s24.flt = none ∧ f24.flt = some .outOfBounds := by
  refine ⟨⟨?_, ?_, ?_⟩, ?_, ?_⟩ <;> decide

/-- The last clause on two buffers that differ outside the window only. -/
theorem witness_ReadBitsIsTheWeightedSum :
    7 < 9 ∧ ∀ x, 7 / 8 ≤ x → x ≤ (9 - 1) / 8 →
      Memory.byte (bytesFrom 0 [0xA5, 0x5A, 0xC3]) x = Memory.byte (bytesFrom 0 [0xA5, 0x5A]) x := by
  refine ⟨by decide, fun x _ h => ?_⟩
  interval_cases x <;> decide

theorem witness_WriteBitsIsBitwise :
    Memory.wf s24.buf = true ∧ 8 < 16 ∧ (8 ≤ 8 ∧ 8 < 16) ∧ ¬(8 ≤ 7 ∧ 7 < 16) ∧ ¬(8 ≤ 16 ∧ 16 < 16) ∧
    (0 < 8 / 8 ∨ (16 - 1) / 8 < 0) ∧ (2 < 8 / 8 ∨ (16 - 1) / 8 < 2) := by decide

theorem witness_RdbitsRespondsTheValue :
    s136.flt = none ∧ 8 < 136 ∧ 136 ≤ s136.cfg.nbits ∧ 136 - 8 ≤ 128 ∧
    135 < 136 ∧ 136 - 135 ≤ 128 := by decide

theorem witness_WrbitsWritesTheRange :
    Memory.wf s136.buf = true ∧ s136.flt = none ∧ 8 < 136 ∧ 136 ≤ s136.cfg.nbits ∧ 136 - 8 ≤ 128 ∧
    0 < 1 ∧ 1 ≤ s136.cfg.nbits ∧ 1 - 0 ≤ 128 := by decide

/-- Each clause at the boundary: `[5, 5)`, `[24, 25)`, `[7, 136)`; V66, V69, V76. -/
theorem witness_BadRangesRaise :
    s24.flt = none ∧ 5 ≥ 5 ∧ (24 < 25 ∧ 25 > s24.cfg.nbits) ∧
    s136.flt = none ∧ (7 < 136 ∧ 136 ≤ s136.cfg.nbits ∧ 136 - 7 > 128) ∧
    (8 < 136 ∧ 136 ≤ s136.cfg.nbits ∧ 136 - 8 ≤ 128) ∧
    (Instr.rdbits 5 5 = .rdbits 5 5 ∨ ∃ value, Instr.rdbits 5 5 = .wrbits 5 5 value) ∧
    (Instr.wrbits 24 25 1 = .rdbits 24 25 ∨ ∃ value, Instr.wrbits 24 25 1 = .wrbits 24 25 value) :=
  ⟨by decide, by decide, by decide, by decide, by decide, by decide, .inl rfl, .inr ⟨1, rfl⟩⟩

theorem witness_WriteThenReadReturnsTheValue :
    Memory.wf s136.buf = true ∧ checkRange 136 8 136 = none ∧ checkRange 136 135 136 = none ∧
    2 ^ 128 - 1 < 2 ^ 128 := by decide

/-- Neighbouring ranges on both sides of `[8, 16)`. -/
theorem witness_WritePreservesOtherBits :
    Memory.wf s24.buf = true ∧ checkRange 24 8 16 = none ∧ ¬(8 ≤ 7 ∧ 7 < 16) ∧ ¬(8 ≤ 16 ∧ 16 < 16) ∧
    checkRange 24 0 8 = none ∧ (8 ≤ 8 ∨ 16 ≤ 0) ∧ checkRange 24 16 24 = none ∧
    (24 ≤ 8 ∨ 16 ≤ 16) := by decide

theorem witness_ReadsSeeOneBitArray :
    (0 < 128 ∧ 128 < 256 ∧ 128 - 0 ≤ 128 ∧ 256 - 128 ≤ 128) ∧
    Memory.wf s24.buf = true ∧ (4 ≤ 4 ∧ 4 < 21 ∧ 21 ≤ 21) ∧ (4 ≤ 20 ∧ 20 < 21 ∧ 21 ≤ 21) := by decide

theorem witness_WireFormatIsTheByteReads : 0 < s24.cfg.nb ∧ 2 < s24.cfg.nb := by decide

theorem witness_OffsetsDescribeTheRange :
    checkRange 136 7 135 = none ∧ checkRange 136 0 1 = none := by decide

/-- `[4, 21)`: head, interior and tail byte; `[2, 5)`: head and tail in one byte. -/
theorem witness_CoveredBitsSumToTheWidth :
    checkRange 24 4 21 = none ∧ firstByte 4 ≤ 0 ∧ 2 ≤ lastByte 21 ∧
    (firstByte 4 < 1 ∧ 1 < lastByte 21) ∧ checkRange 24 2 5 = none ∧ firstByte 2 ≤ 0 ∧
    0 ≤ lastByte 5 := by decide

theorem witness_ChunkedReadEqualsReadBits :
    checkRange 136 3 131 = none ∧ checkRange 136 135 136 = none := by decide

theorem witness_ChunkedWriteEqualsWriteBits :
    Memory.wf s136.buf = true ∧ checkRange 136 3 131 = none ∧ checkRange 136 135 136 = none := by decide

theorem witness_WindowFormEqualsTheCodec :
    Memory.wf s136.buf = true ∧ checkRange 136 3 131 = none ∧ checkRange 136 0 128 = none := by decide

/-- A `bool`, an `enum` and a `prim` field of K2. -/
theorem witness_GetRespondsTheTarget :
    configWf sK2.cfg = true ∧ sK2.flt = none ∧
    sK2.cfg.fields[0]? = some ⟨['b'], .bool, 1, .w8, 0⟩ ∧ 1 ≤ 1 ∧
    sK2.cfg.fields[1]? = some ⟨['e'], .enum [2, 0, 3, 1], 2, .w8, 1⟩ ∧ 1 ≤ 2 ∧
    sK2.cfg.fields[3]? = some ⟨['q'], .prim 16, 16, .w16, 8⟩ ∧ 1 ≤ 16 := by decide

theorem witness_SetWritesTheField :
    configWf sK2.cfg = true ∧ Memory.wf sK2.buf = true ∧ sK2.flt = none ∧
    sK2.cfg.fields[0]? = some ⟨['b'], .bool, 1, .w8, 0⟩ ∧ validTarget .bool .w8 1 ∧
    sK2.cfg.fields[1]? = some ⟨['e'], .enum [2, 0, 3, 1], 2, .w8, 1⟩ ∧
    validTarget (.enum [2, 0, 3, 1]) .w8 3 ∧
    sK2.cfg.fields[2]? = some ⟨['p'], .prim 5, 5, .w8, 3⟩ ∧ validTarget (.prim 5) .w8 0xFF := by
  simp only [validTarget]; decide

theorem witness_NewZeroFillsTheBuffer :
    Memory.wf s24.buf = true ∧ s24.flt = none ∧ 2 < s24.cfg.nb ∧ s24.cfg.nb ≤ 3 := by decide

theorem witness_FieldsReadZeroAfterNew :
    Inv sK2 ∧ sK2.flt = none ∧
    sK2.cfg.fields[1]? = some ⟨['e'], .enum [2, 0, 3, 1], 2, .w8, 1⟩ ∧ 1 ≤ 2 := by
  refine ⟨⟨?_, ?_, ?_⟩, ?_, ?_, ?_⟩ <;> decide

theorem witness_SetThenGetReturnsTheValue :
    Inv sK2 ∧ sK2.flt = none ∧
    sK2.cfg.fields[1]? = some ⟨['e'], .enum [2, 0, 3, 1], 2, .w8, 1⟩ ∧ 1 ≤ 2 ∧
    representable (.enum [2, 0, 3, 1]) 3 ∧
    sK2.cfg.fields[2]? = some ⟨['p'], .prim 5, 5, .w8, 3⟩ ∧ 1 ≤ 5 ∧ representable (.prim 5) 31 ∧
    sK2.cfg.fields[0]? = some ⟨['b'], .bool, 1, .w8, 0⟩ ∧ 1 ≤ 1 ∧ representable .bool 1 := by
  simp only [representable]
  refine ⟨⟨?_, ?_, ?_⟩, ?_⟩ <;> decide

theorem witness_SetTruncatesWideValues :
    Inv sK2 ∧ sK2.flt = none ∧ sK2.cfg.fields[2]? = some ⟨['p'], .prim 5, 5, .w8, 3⟩ ∧ 1 ≤ 5 ∧
    Kind.prim 5 = .prim 5 ∧ 2 ^ 5 ≤ (32 : Value).toNat ∧ (255 : Value).toNat < 2 ^ widthBits .w8 := by
  refine ⟨⟨?_, ?_, ?_⟩, ?_⟩ <;> decide

theorem witness_SetLeavesOtherFieldsAlone :
    Inv sK2 ∧ (1 : Nat) ≠ 0 ∧ sK2.cfg.fields[0]? = some ⟨['b'], .bool, 1, .w8, 0⟩ ∧
    ∃ t, exec (.set 1 0) sK2 = .next t ∧
      t.responses = sK2.responses ++ [{ status := .ok, data := 0 }] :=
  ⟨⟨by decide, by decide, by decide⟩, by decide, by decide, _, rfl, rfl⟩

theorem witness_BadOperandsAreRefused :
    sK2.flt = none ∧ sK2.cfg.fields.length ≤ 4 ∧
    sK2.cfg.fields[1]? = some ⟨['e'], .enum [2, 0, 3, 1], 2, .w8, 1⟩ ∧
    ¬validTarget (.enum [2, 0, 3, 1]) .w8 4 ∧ ¬validTarget .bool .w8 2 ∧
    ¬validTarget (.prim 5) .w8 0x100 := by
  simp only [validTarget]; decide

theorem witness_ZeroWidthFieldsRaise :
    configWf sZ.cfg = true ∧ sZ.flt = none ∧
    sZ.cfg.fields[0]? = some ⟨['a'], .prim 0, 0, .w8, 0⟩ ∧ validTarget (.prim 0) .w8 0xFF ∧
    sZ.cfg.fields[1]? = some ⟨['b'], .prim 8, 8, .w8, 0⟩ ∧
    sZ.cfg.fields[2]? = some ⟨['c'], .enum [0], 0, .w8, 8⟩ ∧ validTarget (.enum [0]) .w8 0 := by
  simp only [validTarget]; decide

theorem witness_ConversionRejectsForeignBits :
    2 ≥ 2 ∧ 2 ∉ [0, 0, 1, 1] ∧ [2, 0, 3, 1].Nodup ∧ [2, 0, 3, 1][3]? = some 1 := by decide

theorem witness_DeadBranchesAreNeverTaken :
    configWf sK2.cfg = true ∧
    ∃ t, exec (.get 1) sK2 = .next t ∧ t.responses = sK2.responses ++ [{ status := .ok, data := 3 }] :=
  ⟨by decide, _, rfl, by decide⟩

/-- Each command of `StatusesOfEachCommand` has a next state with one response more. -/
theorem witness_StatusesOfEachCommand :
    configWf s24.cfg = true ∧
    (∃ t r, exec (.rdbits 0 24) s24 = .next t ∧ t.responses = s24.responses ++ [r]) ∧
    (∃ t r, exec (.wrbits 0 24 1) s24 = .next t ∧ t.responses = s24.responses ++ [r]) ∧
    (∃ t r, exec (.get 0) s24 = .next t ∧ t.responses = s24.responses ++ [r]) ∧
    (∃ t r, exec (.set 0 1) s24 = .next t ∧ t.responses = s24.responses ++ [r]) ∧
    (∃ t r, exec .new s24 = .next t ∧ t.responses = s24.responses ++ [r]) ∧
    (∃ t r, commandOp s24.cfg.pw 0 ∉ [1, 2, 3, 4, 5] ∧ runCommand 0 s24 = .next t ∧
      t.responses = s24.responses ++ [r]) :=
  ⟨by decide, ⟨_, _, rfl, rfl⟩, ⟨_, _, rfl, rfl⟩, ⟨_, _, rfl, rfl⟩, ⟨_, _, rfl, rfl⟩,
    ⟨_, _, rfl, rfl⟩, ⟨_, _, by decide, rfl, rfl⟩⟩

theorem witness_InvalidDiscriminantIsRecoverable :
    let s := unitOf repeated [0x80]
    s.flt = none ∧ s.cfg.fields[0]? = some ⟨['e'], .enum [0, 0, 1, 1], 2, .w8, 0⟩ ∧
    checkRange s.cfg.nbits 0 (0 + 2) = none ∧ weightedSum s.buf 0 (0 + 2) ∉ [0, 0, 1, 1] := by decide

/-- V72: half inside the buffer. -/
theorem witness_ErrorsLeaveTheBufferAlone :
    ∃ t r, runCommand (encode 32 (.wrbits 16 32 0xFFFF)) s24 = .next t ∧
      t.responses = s24.responses ++ [r] ∧ r.status ≠ .ok :=
  ⟨_, ⟨.fatal .outOfBounds, 0⟩, rfl, by decide, by decide⟩

/-- A write, a refused word and a read in order, and a range of the final buffer. -/
theorem witness_ReadsReturnTheLatestWrite :
    Memory.wf s24.buf = true ∧
    (∃ t, runCommands s24 [encode 32 (.wrbits 4 13 0x1FF), 0, encode 32 (.rdbits 4 13)] = .next t) ∧
    4 < 13 :=
  ⟨by decide, ⟨_, rfl⟩, by decide⟩

/-- A Faulted response, another error, and an OK of a command that responds 0. -/
theorem witness_ResponseWordLayout :
    (∃ t r, runCommand 0 f24 = .next t ∧ t.responses = f24.responses ++ [r] ∧
      r.status = .faulted) ∧
    (∃ t r, runCommand 0 s24 = .next t ∧ t.responses = s24.responses ++ [r] ∧ r.status ≠ .ok ∧
      r.status ≠ .faulted) ∧
    (∃ t r, runCommand (encode 32 (.set 0 1)) s24 = .next t ∧ t.responses = s24.responses ++ [r] ∧
      r.status = .ok ∧ commandOp s24.cfg.pw (encode 32 (.set 0 1)) ∉ [1, 3]) :=
  ⟨⟨_, ⟨.faulted, 2⟩, rfl, by decide, by decide⟩,
    ⟨_, ⟨.illegalCommand, 0⟩, rfl, by decide, by decide, by decide⟩,
    ⟨_, ⟨.ok, 0⟩, rfl, by decide, by decide, by decide⟩⟩

theorem witness_HostErrorsAreMarked :
    (∃ t r, runCommand 0 s24 = .next t ∧ t.responses = s24.responses ++ [r]) ∧
    ∃ t, step { s24 with hostErr := true, host := [.reset] } = .next t :=
  ⟨⟨_, ⟨.illegalCommand, 0⟩, rfl, by decide⟩, _, rfl⟩

theorem witness_ReadersFrame :
    (∃ t, exec (.rdbits 4 13) s24 = .next t) ∧ ∃ t, exec (.get 0) s24 = .next t :=
  ⟨⟨_, rfl⟩, _, rfl⟩

theorem witness_WrbitsFrame :
    Memory.wf s24.buf = true ∧ (∃ t, exec (.wrbits 8 16 1) s24 = .next t) ∧
    (0 < 8 / 8 ∨ (16 - 1) / 8 < 0) ∧ (2 < 8 / 8 ∨ (16 - 1) / 8 < 2) ∧ ¬(8 ≤ 16 ∧ 16 < 16) :=
  ⟨by decide, ⟨_, rfl⟩, by decide⟩

theorem witness_SetFrame :
    Memory.wf sK2.buf = true ∧ (∃ t, exec (.set 1 0) sK2 = .next t) ∧
    sK2.cfg.fields[1]? = some ⟨['e'], .enum [2, 0, 3, 1], 2, .w8, 1⟩ ∧
    (1 < 1 / 8 ∨ (1 + 2 - 1) / 8 < 1) ∧ ¬(1 ≤ 3 ∧ 3 < 1 + 2) ∧
    (∃ t, exec (.set 4 0) sK2 = .next t) ∧ sK2.cfg.fields[4]? = none :=
  ⟨by decide, ⟨_, rfl⟩, by decide, by decide, by decide, ⟨_, rfl⟩, by decide⟩

theorem witness_NewFrame :
    Memory.wf s24.buf = true ∧ (∃ t, exec .new s24 = .next t) ∧ s24.cfg.nb ≤ 3 ∧
    Memory.wf f24.buf = true ∧ (∃ t, exec .new f24 = .next t) ∧ f24.flt ≠ none :=
  ⟨by decide, ⟨_, rfl⟩, by decide, by decide, ⟨_, rfl⟩, by decide⟩

theorem witness_BestFitIsTheSmallestWidth :
    0 ≤ 128 ∧ 128 ≤ 128 ∧ 129 > 128 ∧ 8 ≤ 9 ∧ bestFit 8 = .ok .w8 ∧ bestFit 9 = .ok .w16 ∧
    9 ≤ widthBits .w16 := by decide

theorem witness_EnumDerivationIsABijection :
    deriveEnum [.explicit 3, .bare, .bare, .explicit 0] = .ok ⟨.enum [3, 1, 2, 0], 2, .w8⟩ ∧
    3 < 2 ^ 2 := by decide

theorem witness_PlannerPlacesAndChecks :
    elaborate 32 [⟨['x'], .prim 24, some 24⟩] = .ok one24 ∧
    allResolve [⟨['a'], .prim 9, none⟩] = true := by decide

theorem witness_FieldsPartitionTheBuffer :
    configWf k2 = true ∧ 0 < k2.nbits ∧ 23 < k2.nbits ∧
    k2.fields[2]? = some ⟨['p'], .prim 5, 5, .w8, 3⟩ ∧
    k2.fields[3]? = some ⟨['q'], .prim 16, 16, .w16, 8⟩ := by decide

theorem witness_WellFormedIsElaborated :
    elaborate Config.worked.pw
        [⟨['a'], .prim 1, none⟩, ⟨['b'], .prim 3, none⟩, ⟨['c'], .prim 4, none⟩,
          ⟨['d'], .prim 24, none⟩] = .ok Config.worked ∧
    8 * Config.worked.nb < 2 ^ Config.worked.pw := by decide

theorem witness_StepKeepsInvariant :
    Inv (present (encode 32 (.wrbits 0 24 0)) s24) ∧
    ∃ t, step (present (encode 32 (.wrbits 0 24 0)) s24) = .next t :=
  ⟨⟨by decide, by decide, by decide⟩, _, rfl⟩

theorem witness_ResetMeetsInvariant : configWf k2 = true := by decide

theorem witness_ConfigurationIsConstant :
    (∃ t, step (present 0 s24) = .next t) ∧
    ∃ r, clockEdge s24 ⟨false, true, 0⟩ true = .next r :=
  ⟨⟨_, rfl⟩, _, rfl⟩

theorem witness_OneCommandInFlight :
    configWf s24.cfg = true ∧ (PinsIn.mk false true 0).rst = false ∧ s24.inFlight = none ∧
    (PinsIn.mk false true 0).cmdValid = true ∧ (PinsIn.mk false false 0).cmdValid = false ∧
    ({ s24 with inFlight := some 0 } : State).inFlight = some 0 ∧
    (PinsIn.mk true true 0).rst = true := by decide

theorem witness_LatencyDoesNotMatter :
    configWf s24.cfg = true ∧ s24.inFlight = none ∧
    encode 32 (.get 0) < 2 ^ (8 + 2 * s24.cfg.pw + 128) ∧
    (∀ p ∈ [PinsIn.mk false true 0, PinsIn.mk false false 1], p.rst = false) ∧
    (PinsIn.mk false true 7).rst = false ∧
    (PinsIn.mk false true (encode 32 (.get 0))).cmdValid = true ∧
    ∃ t, step { s24 with host := .command (encode 32 (.get 0)) :: s24.host } = .next t :=
  ⟨by decide, by decide, by decide, by decide, by decide, by decide, _, rfl⟩

theorem witness_PseudoCommandsAbbreviate :
    (k2.fields.map Field.name).Nodup ∧
    k2.fields[3]? = some ⟨['q'], .prim 16, 16, .w16, 8⟩ := by decide

end Sys2Proof.Tests
end

section
/-! SUPPORT. The fault latch and reset (10_state.md R23, R30): what a step can do, said once, what a
faulted unit answers, and the two statements about the state that follow. -/

namespace Sys2Proof.Proofs

open Sys2Proof.Machine Sys2Proof.Laws

/-! ### What a step can do -/

/-- A step that answers a next state is of a unit that exists, and is what `advance` answers. -/
theorem step_eq_next {s t : State} (h : step s = .next t) :
    configWf s.cfg = true ∧ advance s = .next t := by
  unfold step ifUnitExists at h
  split at h
  case isTrue hc => exact ⟨hc, h⟩
  case isFalse => cases h

/-- A step is a reset, or runs one command word, or is idle. The state the word is run on differs from
`s` only in what the host and the handshake hold; which word and which state, `advance_cases` says. -/
theorem step_cases {s t : State} (h : step s = .next t) :
    (∃ rest, s.host = .reset :: rest ∧ t = unitReset { s with host := rest }) ∨
    (∃ w i l, s.host.head? ≠ some .reset ∧
      runCommand w { s with inFlight := i, host := l } = .next t) ∨
    (s.host = [] ∧ s.inFlight = none ∧ t = s) := by
  obtain ⟨-, ha⟩ := step_eq_next h
  obtain ⟨rest, hh, he⟩ | ⟨w, hh, -, he⟩ | ⟨w, rest, hh, -, he⟩ | ⟨hh, hf, he⟩ := advance_cases s <;>
    rw [he] at ha
  · cases ha
    exact .inl ⟨rest, hh, rfl⟩
  · exact .inr (.inl ⟨w, none, s.host, hh, ha⟩)
  · exact .inr (.inl ⟨w, s.inFlight, rest, by simp [hh], ha⟩)
  · cases ha
    exact .inr (.inr ⟨hh, hf, rfl⟩)

/-- Whatever state a command word answers has one of the four effects. -/
theorem effect_of_runCommand {w : Nat} {s t : State} (h : runCommand w s = .next t) :
    CommandEffect s t := by
  obtain ⟨t', ht', heff⟩ := runCommand_effect w s
  cases ht'.symm.trans h
  exact heff

/-! ### The latch under one command -/

/-- Of the four effects only `raise` sets the latch, and it answers the error it latches (R193). -/
theorem responses_of_effect_latched {s t : State} {e : FatalError} (h : CommandEffect s t)
    (hs : s.flt = none) (ht : t.flt = some e) :
    t.responses = s.responses ++ [{ status := .fatal e, data := 0#128 }] := by
  obtain ⟨x, d, -, rfl⟩ | ⟨e', -, rfl⟩ | ⟨a, b, v, -, -, rfl⟩ | ⟨-, rfl⟩ := h
  case inr.inl => simpa using ht
  all_goals simp [hs] at ht

/-- Every command's first test is the latch (R197, test 1). -/
theorem exec_of_faulted {s : State} {e : FatalError} (i : Instr) (h : s.flt = some e) :
    exec i s = refuseFaulted e s := by
  cases i <;> exact unlessFaulted_some h _

/-- A faulted unit answers Faulted to every command word, legal or not (R196). -/
theorem runCommand_of_faulted {s : State} {e : FatalError} (w : Nat) (h : s.flt = some e) :
    runCommand w s = refuseFaulted e s := by
  unfold runCommand
  cases decode s.cfg.pw w with
  | ok i => exact exec_of_faulted i h
  | error _ => exact unlessFaulted_some h _

/-! ### The latch under one step -/

theorem step_responses_of_latched {s t : State} {e : FatalError} (h : step s = .next t)
    (hs : s.flt = none) (ht : t.flt = some e) :
    t.responses = s.responses ++ [{ status := .fatal e, data := 0#128 }] := by
  obtain ⟨rest, -, rfl⟩ | ⟨w, i, l, -, hrun⟩ | ⟨-, -, rfl⟩ := step_cases h
  · simp at ht
  · -- stated of the state the word is run on, which has the latch and the responses of `s`
    have hresp := responses_of_effect_latched (effect_of_runCommand hrun) hs ht
    exact hresp
  · simp [hs] at ht

theorem step_of_faulted {s t : State} {e : FatalError} (h : step s = .next t)
    (hs : s.flt = some e) (hr : s.host.head? ≠ some .reset) :
    t.flt = some e ∧ t.buf = s.buf ∧
      (t = s ∨ t.responses =
        s.responses ++ [{ status := .faulted, data := (fatalCode e).setWidth 128 }]) := by
  obtain ⟨rest, hh, -⟩ | ⟨w, i, l, -, hrun⟩ | ⟨-, -, rfl⟩ := step_cases h
  · simp [hh] at hr
  · have hrefused := runCommand_of_faulted (s := { s with inFlight := i, host := l }) w hs
    cases hrefused.symm.trans hrun
    exact ⟨hs, rfl, .inr rfl⟩
  · exact ⟨hs, rfl, .inl rfl⟩

/-- Settles O8: of a command's effects only `raise` sets the latch, and a faulted unit refuses every
word. -/
theorem latchKeepsTheFirstFatalError : Obligations.LatchKeepsTheFirstFatalError :=
  ⟨rfl, rfl, rfl, rfl, rfl, resetOf_flt,
    fun _ _ _ => step_responses_of_latched, fun _ _ _ => step_of_faulted⟩

/-! ### Reset -/

/-- The empty list of cells is the buffer of zero bytes (R30). -/
@[simp] theorem byte_nil (a : Nat) : Memory.byte [] a = 0#8 := rfl

/-- Settles O9: the reset buffer lists no byte, so every byte reads 0. -/
theorem resetStateIsZero : Obligations.ResetStateIsZero := fun c =>
  ⟨resetOf_cfg c, resetOf_flt c, resetOf_inFlight c, fun i _ => byte_nil i⟩

end Sys2Proof.Proofs
end

section
/-! SUPPORT. `BUF` as one bit array (20_memory.md R42, R43): how a read splits, what a read of a range
just written returns, and a read of whole bytes. -/

namespace Sys2Proof.Proofs

open Sys2Proof.Machine Sys2Proof.Laws

/-! ### Splitting a read -/

/-- The loop of R101 over `n + k` positions: the last `k` shift the value of the first `n` up by `k`. -/
theorem readRun_add (m : Memory) (start n k : Nat) :
    readRun m start (n + k) = readRun m start n * 2 ^ k + readRun m (start + n) k := by
  induction k with
  | zero => simp [readRun]
  | succ k ih =>
    rw [← Nat.add_assoc, readRun, readRun, ih, pow_succ, ← Nat.add_assoc start n k]
    ring

/-- A read splits at any position of its range, the ends included and at any width. -/
theorem readBits_split (m : Memory) {start mid stop : Nat} (h1 : start ≤ mid) (h2 : mid ≤ stop) :
    readBits m start stop = readBits m start mid * 2 ^ (stop - mid) + readBits m mid stop := by
  have hwidth : stop - start = (mid - start) + (stop - mid) := by omega
  have hmid : start + (mid - start) = mid := by omega
  rw [readBits, hwidth, readRun_add, hmid]
  rfl

/-! ### Reading back what was written -/

/-- Both sides hold value bit `stop - b + k` at bit `k` of the read, which is below the width written. -/
theorem readBits_writeBits_within {m : Memory} {start stop a b : Nat} (value : Nat)
    (hw : Memory.wf m = true) (ha : start ≤ a) (hab : a < b) (hb : b ≤ stop) :
    readBits (writeBits m start stop value) a b =
      value % 2 ^ (stop - start) / 2 ^ (stop - b) % 2 ^ (b - a) := by
  apply Nat.eq_of_testBit_eq
  intro k
  rw [testBit_readBits, Nat.testBit_mod_two_pow, Nat.testBit_div_two_pow, Nat.testBit_mod_two_pow]
  by_cases hk : k < b - a
  · have hin : start ≤ a + (b - a - 1 - k) ∧ a + (b - a - 1 - k) < stop := by omega
    have hpos : stop - 1 - (a + (b - a - 1 - k)) = k + (stop - b) := by omega
    have hlow : k + (stop - b) < stop - start := by omega
    rw [bit_writeBits value _ hw (by omega), if_pos hin, hpos]
    simp [hlow]
  · simp [hk]

/-- Settles O19: the loop splits at any position, and the bits written are read back in place. -/
theorem readsSeeOneBitArray : Obligations.ReadsSeeOneBitArray :=
  ⟨fun m _ _ _ h1 h2 _ _ => readBits_split m h1.le h2.le,
    fun _ _ _ value _ _ hw ha hab hb => readBits_writeBits_within value hw ha hab hb⟩

/-! ### Reading whole bytes -/

/-- The eight positions of byte `i`, MSB first, read as the byte (R42 with one byte). -/
theorem readBits_byte (m : Memory) (i : Nat) :
    readBits m (8 * i) (8 * (i + 1)) = (Memory.byte m i).toNat := by
  have hwidth : 8 * (i + 1) - 8 * i = 8 := by omega
  apply Nat.eq_of_testBit_eq
  intro k
  rw [testBit_readBits, hwidth, BitVec.testBit_toNat]
  by_cases hk : k < 8
  · have hbyte : (8 * i + (8 - 1 - k)) / 8 = i := by omega
    have hbit : 7 - (8 * i + (8 - 1 - k)) % 8 = k := by omega
    rw [Memory.bit, hbyte, hbit]
    simp [hk]
  · simp [hk, BitVec.getLsbD_of_ge (Memory.byte m i) k (by omega)]

/-- The first byte of a byte-aligned range is its most significant digit in base 256. -/
theorem readBits_aligned_succ (m : Memory) (i k : Nat) :
    readBits m (8 * i) (8 * (i + (k + 1))) =
      (Memory.byte m i).toNat * 256 ^ k + readBits m (8 * (i + 1)) (8 * (i + 1 + k)) := by
  have hstop : 8 * (i + (k + 1)) = 8 * (i + 1 + k) := by omega
  have hwidth : 8 * (i + 1 + k) - 8 * (i + 1) = 8 * k := by omega
  rw [hstop, readBits_split m (mid := 8 * (i + 1)) (by omega) (by omega), readBits_byte, hwidth,
    pow_mul]
  rfl

theorem readBits_aligned (m : Memory) (i k : Nat) :
    readBits m (8 * i) (8 * (i + k)) =
      ∑ j ∈ Finset.range k, (Memory.byte m (i + j)).toNat * 256 ^ (k - 1 - j) := by
  induction k generalizing i with
  | zero => simp [readBits, readRun]
  | succ k ih =>
    have hrest (j : Nat) :
        (Memory.byte m (i + 1 + j)).toNat * 256 ^ (k - 1 - j) =
          (Memory.byte m (i + (j + 1))).toNat * 256 ^ (k + 1 - 1 - (j + 1)) := by
      rw [show i + 1 + j = i + (j + 1) by omega, show k - 1 - j = k + 1 - 1 - (j + 1) by omega]
    rw [readBits_aligned_succ, ih, Finset.sum_range_succ', Nat.add_comm]
    simp [hrest]

/-- Settles O20, by induction on the number of bytes, the first byte taken off the front. -/
theorem alignedRangesAreBigEndian : Obligations.AlignedRangesAreBigEndian := readBits_aligned

end Sys2Proof.Proofs
end

section
/-! SUPPORT. The command word and the command text (30_encoding.md R70 to R75, R81): what the decoder
answers per opcode, the fields of a concatenation, the words of the assembler, and the field index of a
name. -/

namespace Sys2Proof.Proofs

open Sys2Proof.Machine Sys2Proof.Laws

/-! ### The decoder, one equation per opcode -/

section
variable {pw w : Nat}

theorem decode_op_one (h : commandOp pw w = 1) :
    decode pw w = .ok (.rdbits (commandA pw w) (commandB pw w)) := by
  simp [decode, h]

theorem decode_op_two (h : commandOp pw w = 2) :
    decode pw w = .ok (.wrbits (commandA pw w) (commandB pw w) (commandV w)) := by
  simp [decode, h]

theorem decode_op_three (h : commandOp pw w = 3) : decode pw w = .ok (.get (commandA pw w)) := by
  simp [decode, h]

theorem decode_op_four (h : commandOp pw w = 4) :
    decode pw w = .ok (.set (commandA pw w) (commandV w)) := by
  simp [decode, h]

theorem decode_op_five (h : commandOp pw w = 5) : decode pw w = .ok .new := by
  simp [decode, h]

theorem decode_illegal (h : commandOp pw w ∉ [1, 2, 3, 4, 5]) :
    decode pw w = .error (.illegalOpcode (commandOp pw w)) := by
  unfold decode
  split
  case h_6 => rfl
  all_goals simp_all

end

/-- The decoder reads the opcode and the fields the opcode uses, and nothing else of the word. -/
theorem decode_congr {pw w w' : Nat} (hop : commandOp pw w = commandOp pw w')
    (hA : commandOp pw w ∈ [1, 2, 3, 4] → commandA pw w = commandA pw w')
    (hB : commandOp pw w ∈ [1, 2] → commandB pw w = commandB pw w')
    (hV : commandOp pw w ∈ [2, 4] → commandV w = commandV w') :
    decode pw w = decode pw w' := by
  by_cases hmem : commandOp pw w ∈ [1, 2, 3, 4, 5]
  · simp only [List.mem_cons, List.not_mem_nil, or_false] at hmem
    obtain h | h | h | h | h := hmem
    · rw [decode_op_one h, decode_op_one (hop ▸ h), hA (by simp [h]), hB (by simp [h])]
    · rw [decode_op_two h, decode_op_two (hop ▸ h), hA (by simp [h]), hB (by simp [h]),
        hV (by simp [h])]
    · rw [decode_op_three h, decode_op_three (hop ▸ h), hA (by simp [h])]
    · rw [decode_op_four h, decode_op_four (hop ▸ h), hA (by simp [h]), hV (by simp [h])]
    · rw [decode_op_five h, decode_op_five (hop ▸ h)]
  · rw [decode_illegal hmem, decode_illegal (hop ▸ hmem), hop]

theorem runCommand_congr {s : State} {w w' : Nat} (h : decode s.cfg.pw w = decode s.cfg.pw w') :
    runCommand w s = runCommand w' s := by
  unfold runCommand
  rw [h]

/-! ### The fields of a concatenation -/

theorem bitField_zero_of_lt {x n : Nat} (h : x < 2 ^ n) : bitField x 0 n = x := by
  simp [bitField, Nat.mod_eq_of_lt h]

/-- The low part of a concatenation is its field at bit 0. -/
theorem bitField_concat_low {n y : Nat} (x : Nat) (hy : y < 2 ^ n) :
    bitField (x * 2 ^ n + y) 0 n = y := by
  rw [bitField, pow_zero, Nat.div_one, Nat.mul_add_mod_self_right, Nat.mod_eq_of_lt hy]

/-- Above the low part, a field of a concatenation is one of its high part. -/
theorem bitField_concat_high {n y : Nat} (x lo width : Nat) (hy : y < 2 ^ n) :
    bitField (x * 2 ^ n + y) (lo + n) width = bitField x lo width := by
  have hshift : (x * 2 ^ n + y) / 2 ^ n = x := by
    rw [Nat.mul_comm, Nat.mul_add_div (Nat.two_pow_pos n), Nat.div_eq_of_lt hy, Nat.add_zero]
  rw [bitField, Nat.add_comm lo, pow_add, ← Nat.div_div_eq_div_mul, hshift, bitField]

theorem commandV_commandWord (pw op a b : Nat) (v : Value) :
    commandV (commandWord pw op a b v) = v := by
  rw [commandV, commandWord, bitField_concat_low _ v.isLt, BitVec.ofNat_toNat, BitVec.setWidth_eq]

section
variable {pw op a b : Nat}

theorem commandB_commandWord (hb : b < 2 ^ pw) (v : Value) :
    commandB pw (commandWord pw op a b v) = b := by
  have hV := bitField_concat_high ((op * 2 ^ pw + a) * 2 ^ pw + b) 0 pw v.isLt
  rw [Nat.zero_add] at hV
  rw [commandB, commandWord, hV, bitField_concat_low _ hb]

theorem commandA_commandWord (ha : a < 2 ^ pw) (hb : b < 2 ^ pw) (v : Value) :
    commandA pw (commandWord pw op a b v) = a := by
  have hB := bitField_concat_high (op * 2 ^ pw + a) 0 pw hb
  rw [Nat.zero_add] at hB
  rw [commandA, commandWord, bitField_concat_high _ pw pw v.isLt, hB, bitField_concat_low _ ha]

theorem commandOp_commandWord (hop : op < 2 ^ 8) (ha : a < 2 ^ pw) (hb : b < 2 ^ pw) (v : Value) :
    commandOp pw (commandWord pw op a b v) = op := by
  have hlo : 2 * pw + 128 = 0 + pw + pw + 128 := by omega
  rw [commandOp, commandWord, hlo, bitField_concat_high _ _ _ v.isLt,
    bitField_concat_high _ _ _ hb, bitField_concat_high _ _ _ ha, bitField_zero_of_lt hop]

end

/-! ### The words of the assembler -/

theorem fitsPosition_iff {pw n : Nat} : fitsPosition pw n = true ↔ n < 2 ^ pw :=
  decide_eq_true_iff

/-- A line that has a word stands for a command that fits it, and the word is its encoding. -/
theorem sourceWord_eq_ok {c : Config} {src : Source} {w : Nat} (h : sourceWord c src = .ok w) :
    ∃ i, toInstr c src = .ok i ∧ i.wellFormed c.pw = true ∧ w = encode c.pw i := by
  unfold sourceWord at h
  split at h
  case h_1 => cases h
  case h_2 i hi =>
    split at h
    case isTrue hwf => cases h; exact ⟨i, hi, hwf, rfl⟩
    case isFalse => cases h

theorem sourceWord_congr {c : Config} {src src' : Source} (h : toInstr c src = toInstr c src') :
    sourceWord c src = sourceWord c src' := by
  unfold sourceWord
  rw [h]

/-- The encoder has zeros in the fields the opcode ignores (30_encoding.md R75). -/
theorem encode_ignored_zero {pw : Nat} (i : Instr) (h : i.wellFormed pw = true) :
    (commandOp pw (encode pw i) = 5 → commandA pw (encode pw i) = 0) ∧
    (commandOp pw (encode pw i) ∈ [3, 4, 5] → commandB pw (encode pw i) = 0) ∧
    (commandOp pw (encode pw i) ∈ [1, 3, 5] → commandV (encode pw i) = 0) := by
  have h0 : 0 < 2 ^ pw := Nat.two_pow_pos pw
  cases i with
  | rdbits start stop =>
    simp only [Instr.wellFormed, Bool.and_eq_true, fitsPosition_iff] at h
    obtain ⟨hstart, hstop⟩ := h
    have hop := commandOp_commandWord (op := 1) (by decide) hstart hstop 0
    simp only [encode, hop]
    exact ⟨by simp, by simp, fun _ => commandV_commandWord pw 1 start stop 0⟩
  | wrbits start stop value =>
    simp only [Instr.wellFormed, Bool.and_eq_true, fitsPosition_iff] at h
    obtain ⟨hstart, hstop⟩ := h
    have hop := commandOp_commandWord (op := 2) (by decide) hstart hstop value
    simp only [encode, hop]
    exact ⟨by simp, by simp, by simp⟩
  | get f =>
    simp only [Instr.wellFormed, fitsPosition_iff] at h
    have hop := commandOp_commandWord (op := 3) (by decide) h h0 0
    simp only [encode, hop]
    exact ⟨by simp, fun _ => commandB_commandWord h0 0, fun _ => commandV_commandWord pw 3 f 0 0⟩
  | set f t =>
    simp only [Instr.wellFormed, fitsPosition_iff] at h
    have hop := commandOp_commandWord (op := 4) (by decide) h h0 t
    simp only [encode, hop]
    exact ⟨by simp, fun _ => commandB_commandWord h0 t, by simp⟩
  | new =>
    exact ⟨fun _ => commandA_commandWord h0 h0 0, fun _ => commandB_commandWord h0 0,
      fun _ => commandV_commandWord pw 5 0 0 0⟩

/-- Settles O3: the decoder reads only the opcode and the fields it uses, and every word of the assembler
is the encoding of a command that fits it. -/
theorem ignoredFieldsHaveNoEffect : Obligations.IgnoredFieldsHaveNoEffect := by
  refine ⟨fun s w w' hop hA hB hV => runCommand_congr (decode_congr hop hA hB hV), ?_⟩
  intro c src w hw
  obtain ⟨i, -, hwf, rfl⟩ := sourceWord_eq_ok hw
  exact encode_ignored_zero i hwf

/-! ### Names of fields -/

/-- Where no name repeats, the index of a field's name is the field's index. -/
theorem fieldIndex_name {c : Config} {f : Nat} {fld : Field}
    (hnd : (c.fields.map Field.name).Nodup) (hf : c.fields[f]? = some fld) :
    fieldIndex c fld.name = .ok f := by
  have hname : (c.fields.map Field.name)[f]? = some fld.name := by simp [hf]
  obtain ⟨hlt, hget⟩ := List.getElem?_eq_some_iff.1 hname
  have hcount : (c.fields.map Field.name).count fld.name = 1 :=
    List.count_eq_one_of_mem hnd (List.mem_of_getElem? hname)
  have hidx : (c.fields.map Field.name).idxOf fld.name = f := by
    rw [← hget, hnd.idxOf_getElem]
  simp [fieldIndex, hcount, hidx]

theorem toInstr_getName {c : Config} {name : FieldName} {f : Nat} (h : fieldIndex c name = .ok f) :
    toInstr c (.getName name) = toInstr c (.get f) := by
  simp [toInstr, h, Except.map]

theorem toInstr_setName {c : Config} {name : FieldName} {f : Nat} (v : Nat)
    (h : fieldIndex c name = .ok f) :
    toInstr c (.setName name v) = toInstr c (.set f v) := by
  simp [toInstr, h]

/-- Settles O60: the numeric abbreviations stand for the same command by definition, and a name for the
index `fieldIndex` finds. -/
theorem pseudoCommandsAbbreviate : Obligations.PseudoCommandsAbbreviate := by
  refine ⟨fun _ _ => rfl, fun _ _ _ => rfl, fun _ _ => rfl, fun _ _ _ => rfl, ?_⟩
  intro c f fld v hnd hf
  have hidx := fieldIndex_name hnd hf
  exact ⟨sourceWord_congr (toInstr_getName hidx), sourceWord_congr (toInstr_setName v hidx)⟩

end Sys2Proof.Proofs
end

section
/-! SUPPORT. The bit-by-bit codec (40_codec.md R101, R102, R105, R106): the sum and the loop of a read, how
reads and writes of adjoining ranges combine, and what a write leaves to be read. -/

namespace Sys2Proof.Proofs

open Sys2Proof.Machine Sys2Proof.Laws Sys2Proof.Safety

/-! ### The value read -/

theorem readRun_eq_sum (m : Memory) (start n : Nat) :
    readRun m start n =
      ∑ p ∈ Finset.Ico start (start + n), (Memory.bit m p).toNat * 2 ^ (start + n - 1 - p) := by
  induction n with
  | zero => simp [readRun]
  | succ n ih =>
    have hdouble : ∀ p ∈ Finset.Ico start (start + n),
        2 * ((Memory.bit m p).toNat * 2 ^ (start + n - 1 - p)) =
          (Memory.bit m p).toNat * 2 ^ (start + (n + 1) - 1 - p) := by
      intro p hp
      have hp' := (Finset.mem_Ico.1 hp).2
      rw [show start + (n + 1) - 1 - p = start + n - 1 - p + 1 by omega, pow_succ]
      ring
    rw [readRun, ih, Finset.mul_sum, Finset.sum_congr rfl hdouble, ← Nat.add_assoc,
      Finset.sum_Ico_succ_top (by omega)]
    simp

theorem readBits_eq_weightedSum (m : Memory) {start stop : Nat} (h : start ≤ stop) :
    readBits m start stop = weightedSum m start stop := by
  rw [readBits, readRun_eq_sum, Nat.add_sub_cancel' h, weightedSum]

theorem readRun_eq_foldl (m : Memory) (start n : Nat) :
    readRun m start n =
      (List.range' start n).foldl (fun v p => 2 * v + (Memory.bit m p).toNat) 0 := by
  induction n with
  | zero => rfl
  | succ n ih => simp [readRun, ih, List.range'_1_concat]

/-- Every position of the range lies in a byte of its window. -/
theorem readBits_congr_bytes {m m' : Memory} {start stop : Nat}
    (h : ∀ x, start / 8 ≤ x → x ≤ (stop - 1) / 8 → Memory.byte m x = Memory.byte m' x) :
    readBits m start stop = readBits m' start stop :=
  readBits_congr fun p h1 h2 => by
    unfold Memory.bit
    rw [h (p / 8) (Nat.div_le_div_right h1) (Nat.div_le_div_right (by omega))]

/-- Settles O12: the loop is the sum by induction on the width, and reads only positions of its range. -/
theorem readBitsIsTheWeightedSum : Obligations.ReadBitsIsTheWeightedSum :=
  fun m start stop h =>
    ⟨readBits_eq_weightedSum m h.le, readRun_eq_foldl m start (stop - start),
      readBits_lt m start stop, fun _ => readBits_congr_bytes⟩

/-! ### The buffer written -/

/-- The range takes value bits below its width only. -/
theorem writeBits_mod {m : Memory} {start stop : Nat} (value : Nat) (hw : Memory.wf m = true)
    (hs : start ≤ stop) :
    writeBits m start stop value = writeBits m start stop (value % 2 ^ (stop - start)) := by
  refine memory_ext_bits (wf_writeBits _ _ _ hw) (wf_writeBits _ _ _ hw) fun p => ?_
  rw [bit_writeBits _ _ hw hs, bit_writeBits _ _ hw hs, Nat.testBit_mod_two_pow]
  refine if_ctx_congr Iff.rfl (fun hp => ?_) fun _ => rfl
  simp [show stop - 1 - p < stop - start by omega]

/-- Settles O13: what a write does to each bit fixes the buffer, and a byte off the window has no bit of
the range. -/
theorem writeBitsIsBitwise : Obligations.WriteBitsIsBitwise :=
  fun _ _ _ value hw hs =>
    ⟨fun p => bit_writeBits value p hw hs.le, writeBits_mod value hw hs.le,
      fun x hx => byte_writeBits_outside value x hw hs hx⟩

/-! ### Reading after a write -/

theorem readBits_writeBits_same {m : Memory} {start stop : Nat} (value : Nat)
    (hw : Memory.wf m = true) (hs : start < stop) :
    readBits (writeBits m start stop value) start stop = value % 2 ^ (stop - start) := by
  simp [readBits_writeBits_within value hw le_rfl hs le_rfl]

theorem bit_writeBits_outside {m : Memory} {start stop p : Nat} (value : Nat)
    (hw : Memory.wf m = true) (hs : start ≤ stop) (hp : ¬(start ≤ p ∧ p < stop)) :
    Memory.bit (writeBits m start stop value) p = Memory.bit m p := by
  rw [bit_writeBits value p hw hs, if_neg hp]

theorem readBits_writeBits_disjoint {m : Memory} {start stop a b : Nat} (value : Nat)
    (hw : Memory.wf m = true) (hs : start ≤ stop) (hd : b ≤ start ∨ stop ≤ a) :
    readBits (writeBits m start stop value) a b = readBits m a b :=
  readBits_congr fun _ _ _ => bit_writeBits_outside value hw hs (by omega)

/-- Settles O17: the range just written is its own sub-range. -/
theorem writeThenReadReturnsTheValue : Obligations.WriteThenReadReturnsTheValue :=
  fun _ _ _ _ value hw hr _ => readBits_writeBits_same value hw (checkRange_none.1 hr).1

/-- Settles O18: a disjoint range has no position of the range written. -/
theorem writePreservesOtherBits : Obligations.WritePreservesOtherBits := by
  intro m nbits start stop value hw hr
  have hs := (checkRange_none.1 hr).1.le
  exact ⟨fun p => bit_writeBits_outside value hw hs,
    fun a b _ => readBits_writeBits_disjoint value hw hs⟩

/-! ### Adjoining ranges -/

/-- Shifting a read right drops its last positions. -/
theorem readBits_div (m : Memory) {start mid stop : Nat} (h1 : start ≤ mid) (h2 : mid ≤ stop) :
    readBits m start stop / 2 ^ (stop - mid) = readBits m start mid := by
  rw [readBits_split m h1 h2, Nat.mul_comm, Nat.mul_add_div (Nat.two_pow_pos _),
    Nat.div_eq_of_lt (readBits_lt m mid stop), Nat.add_zero]

/-- Cutting a read to its low bits drops its first positions. -/
theorem readBits_mod (m : Memory) {start mid stop : Nat} (h1 : start ≤ mid) (h2 : mid ≤ stop) :
    readBits m start stop % 2 ^ (stop - mid) = readBits m mid stop := by
  rw [readBits_split m h1 h2, Nat.mul_add_mod_self_right, Nat.mod_eq_of_lt (readBits_lt m mid stop)]

/-- The loop of R102 over `n + k` positions: the last `k` take the low `k` bits, the first `n` the bits
above them. -/
theorem writeRun_add (m : Memory) (start n k value : Nat) :
    writeRun m start (n + k) value =
      writeRun (writeRun m start n (value / 2 ^ k)) (start + n) k value := by
  induction k generalizing value with
  | zero => simp [writeRun]
  | succ k ih =>
    rw [← Nat.add_assoc, writeRun, ih, writeRun, Nat.div_div_eq_div_mul, pow_succ', Nat.add_assoc]

/-- A write splits at any position of its range, the ends included. -/
theorem writeBits_split (m : Memory) {start mid stop : Nat} (value : Nat) (h1 : start ≤ mid)
    (h2 : mid ≤ stop) :
    writeBits m start stop value =
      writeBits (writeBits m start mid (value / 2 ^ (stop - mid))) mid stop value := by
  have hwidth : stop - start = (mid - start) + (stop - mid) := by omega
  have hmid : start + (mid - start) = mid := by omega
  rw [writeBits, hwidth, writeRun_add, hmid]
  rfl

end Sys2Proof.Proofs
end

section
/-! SUPPORT. The offset/mask/shift datapath (40_codec.md R109 to R113). A window is a range of whole bytes
around the range accessed: reading the range is a shift and a cut of the window's value, and writing it
replaces one field of that value. The window form has one window; the chunked form is a loop over one-byte
windows. -/

namespace Sys2Proof.Proofs

open Sys2Proof.Machine Sys2Proof.Laws

/-! ### Offsets -/

theorem firstByte_headSkip (start : Nat) : 8 * firstByte start + headSkip start = start :=
  Nat.div_add_mod start 8

theorem lastByte_tailExtent {stop : Nat} (h : 0 < stop) :
    8 * lastByte stop + tailExtent stop = stop := by
  unfold lastByte tailExtent
  omega

theorem headSkip_le (start : Nat) : headSkip start ≤ 7 := by
  unfold headSkip
  omega

theorem tailExtent_pos (stop : Nat) : 1 ≤ tailExtent stop := Nat.le_add_left 1 _

theorem tailExtent_le (stop : Nat) : tailExtent stop ≤ 8 := by
  unfold tailExtent
  omega

theorem firstByte_le_lastByte {start stop : Nat} (h : start < stop) :
    firstByte start ≤ lastByte stop :=
  Nat.div_le_div_right (by omega)

theorem firstByte_add_windowBytes {start stop : Nat} (h : start < stop) :
    firstByte start + windowBytes start stop = lastByte stop + 1 := by
  have := firstByte_le_lastByte h
  unfold windowBytes
  omega

/-- Settles O22: each offset is a quotient or a remainder by 8, and the rest is linear in them. -/
theorem offsetsDescribeTheRange : Obligations.OffsetsDescribeTheRange := by
  intro nbits start stop hr
  obtain ⟨hlt, -, hwidth⟩ := checkRange_none.1 hr
  have hhead := firstByte_headSkip start
  have htail := lastByte_tailExtent (stop := stop) (by omega)
  have hskip := headSkip_le start
  have hpos := tailExtent_pos stop
  have hext := tailExtent_le stop
  have hle := firstByte_le_lastByte hlt
  have hcount := firstByte_add_windowBytes hlt
  exact ⟨rfl, rfl, rfl, rfl, hhead, htail, by omega, hskip, hpos, hext, hle, rfl, by omega, by omega⟩

/-- The window ends `s` positions after the range. -/
theorem windowShift_eq {stop : Nat} (h : 0 < stop) :
    windowShift stop = 8 * (lastByte stop + 1) - stop := by
  have := lastByte_tailExtent h
  unfold windowShift
  omega

/-! ### A range inside a window -/

/-- The window's value shifted down past what follows the range and cut to the range's width. -/
theorem readBits_inside_window (m : Memory) {lo start stop hi : Nat} (h1 : lo ≤ start)
    (h2 : start ≤ stop) (h3 : stop ≤ hi) :
    (readBits m lo hi >>> (hi - stop)) % 2 ^ (stop - start) = readBits m start stop := by
  rw [Nat.shiftRight_eq_div_pow, readBits_div m (h1.trans h2) h3, readBits_mod m h1 h2]

/-- A `total`-bit word with its field of `width` bits at bit `shift` replaced by the low bits of `value`:
the read-mask-write of R112 (one byte) and R113 (the window). -/
def replaceField (total width shift word value : Nat) : Nat :=
  (word &&& (2 ^ total - 1 - ((2 ^ width - 1) <<< shift))) ||| ((value % 2 ^ width) <<< shift)

theorem fieldMask_lt {total width shift : Nat} (h : width + shift ≤ total) :
    (2 ^ width - 1) <<< shift < 2 ^ total := by
  rw [Nat.shiftLeft_eq]
  calc (2 ^ width - 1) * 2 ^ shift
      < 2 ^ width * 2 ^ shift :=
        Nat.mul_lt_mul_of_pos_right (Nat.sub_lt (Nat.two_pow_pos _) one_pos) (Nat.two_pow_pos _)
    _ = 2 ^ (width + shift) := (pow_add ..).symm
    _ ≤ 2 ^ total := Nat.pow_le_pow_right two_pos h

theorem testBit_replaceField {total width shift i : Nat} (word value : Nat)
    (h : width + shift ≤ total) (hi : i < total) :
    (replaceField total width shift word value).testBit i =
      if shift ≤ i ∧ i < shift + width then value.testBit (i - shift) else word.testBit i := by
  have hmask : 2 ^ total - 1 - ((2 ^ width - 1) <<< shift) =
      2 ^ total - ((2 ^ width - 1) <<< shift + 1) := by omega
  rw [replaceField, hmask, Nat.testBit_or, Nat.testBit_and,
    Nat.testBit_two_pow_sub_succ (fieldMask_lt h), Nat.testBit_shiftLeft, Nat.testBit_shiftLeft,
    Nat.testBit_two_pow_sub_one, Nat.testBit_mod_two_pow]
  by_cases hlo : shift ≤ i
  · by_cases hhi : i < shift + width
    · simp [hlo, hhi, show i - shift < width by omega]
    · simp [hi, hhi, show ¬i - shift < width by omega]
  · simp [hi, hlo]

/-- Writing the window's value back with the range's field replaced writes the range. -/
theorem writeBits_replaceField {m : Memory} {lo start stop hi : Nat} (value : Nat)
    (hw : Memory.wf m = true) (h1 : lo ≤ start) (h2 : start ≤ stop) (h3 : stop ≤ hi) :
    writeBits m lo hi
        (replaceField (hi - lo) (stop - start) (hi - stop) (readBits m lo hi) value) =
      writeBits m start stop value := by
  refine memory_ext_bits (wf_writeBits _ _ _ hw) (wf_writeBits _ _ _ hw) fun p => ?_
  rw [bit_writeBits _ _ hw (by omega), bit_writeBits _ _ hw h2]
  by_cases hwin : lo ≤ p ∧ p < hi
  · rw [if_pos hwin, testBit_replaceField _ _ (by omega) (by omega)]
    by_cases hin : start ≤ p ∧ p < stop
    · rw [if_pos (by omega), if_pos hin, show hi - 1 - p - (hi - stop) = stop - 1 - p by omega]
    · rw [if_neg (by omega), if_neg hin, testBit_readBits,
        show lo + (hi - lo - 1 - (hi - 1 - p)) = p by omega]
      simp [show hi - 1 - p < hi - lo by omega]
  · rw [if_neg hwin, if_neg (by omega)]

/-! ### Windows of whole bytes -/

theorem bit_setByte {m : Memory} (b p : Nat) (v : Byte) (hw : Memory.wf m = true) :
    Memory.bit (Memory.setByte m b v) p =
      if p / 8 = b then v.getLsbD (7 - p % 8) else Memory.bit m p := by
  rw [Memory.bit, byte_setByte _ _ _ hw, apply_ite (BitVec.getLsbD · (7 - p % 8)), Memory.bit]

/-- A store of a byte is a write of its eight positions. -/
theorem writeBits_byte {m : Memory} (b value : Nat) (hw : Memory.wf m = true) :
    writeBits m (8 * b) (8 * (b + 1)) value = Memory.setByte m b (BitVec.ofNat 8 value) := by
  refine memory_ext_bits (wf_writeBits _ _ _ hw) (wf_setByte _ _ hw) fun p => ?_
  rw [bit_writeBits _ _ hw (by omega), bit_setByte _ _ _ hw]
  by_cases hp : p / 8 = b
  · rw [if_pos (by omega), if_pos hp, BitVec.getLsbD_ofNat,
      show 8 * (b + 1) - 1 - p = 7 - p % 8 by omega]
    simp [show 7 - p % 8 < 8 by omega]
  · rw [if_neg (by omega), if_neg hp]

theorem windowValue_eq_readBits (m : Memory) (first k : Nat) :
    windowValue m first k = readBits m (8 * first) (8 * (first + k)) := by
  induction k with
  | zero => simp [windowValue, readBits, readRun]
  | succ k ih =>
    have hsplit := readBits_split m (start := 8 * first) (mid := 8 * (first + k))
      (stop := 8 * (first + k + 1)) (by omega) (by omega)
    have hbyte : 8 * (first + k + 1) - 8 * (first + k) = 8 := by omega
    rw [windowValue, ih, ← Nat.add_assoc, hsplit, readBits_byte, hbyte]
    rfl

theorem putBytes_eq_writeBits {m : Memory} (first x k : Nat) (hw : Memory.wf m = true) :
    putBytes m first x k = writeBits m (8 * first) (8 * (first + k)) x := by
  induction k generalizing x with
  | zero => simp [putBytes, writeBits, writeRun]
  | succ k ih =>
    have hsplit := writeBits_split m (start := 8 * first) (mid := 8 * (first + k))
      (stop := 8 * (first + k + 1)) x (by omega) (by omega)
    have hbyte : 8 * (first + k + 1) - 8 * (first + k) = 8 := by omega
    rw [putBytes, ih, ← Nat.add_assoc, hsplit, writeBits_byte _ _ (wf_writeBits _ _ _ hw), hbyte]
    rfl

/-! ### The window form -/

section
variable {start stop : Nat} (h : start < stop)
include h

/-- The range lies in its window. -/
theorem window_covers : 8 * firstByte start ≤ start ∧ stop ≤ 8 * (lastByte stop + 1) := by
  have hhead := firstByte_headSkip start
  have htail := lastByte_tailExtent (stop := stop) (by omega)
  have hext := tailExtent_le stop
  omega

theorem window_eq_readBits (m : Memory) :
    windowValue m (firstByte start) (windowBytes start stop) =
      readBits m (8 * firstByte start) (8 * (lastByte stop + 1)) := by
  rw [windowValue_eq_readBits, firstByte_add_windowBytes h]

theorem windowRead_eq_readBits (m : Memory) : windowRead m start stop = readBits m start stop := by
  obtain ⟨hlo, hhi⟩ := window_covers h
  rw [windowRead, window_eq_readBits h, windowShift_eq (by omega),
    readBits_inside_window m hlo h.le hhi]

theorem windowUpdate_eq_replaceField (m : Memory) (value : Nat) :
    windowUpdate m start stop value =
      replaceField (8 * (lastByte stop + 1) - 8 * firstByte start) (stop - start)
        (8 * (lastByte stop + 1) - stop)
        (readBits m (8 * firstByte start) (8 * (lastByte stop + 1))) value := by
  have hcount := firstByte_add_windowBytes h
  rw [← window_eq_readBits h, ← windowShift_eq (by omega),
    show 8 * (lastByte stop + 1) - 8 * firstByte start = 8 * windowBytes start stop by omega]
  rfl

theorem windowWrite_eq_writeBits {m : Memory} (value : Nat) (hw : Memory.wf m = true) :
    windowWrite m start stop value = writeBits m start stop value := by
  obtain ⟨hlo, hhi⟩ := window_covers h
  rw [windowWrite, putBytes_eq_writeBits _ _ _ hw, firstByte_add_windowBytes h,
    windowUpdate_eq_replaceField h, writeBits_replaceField value hw hlo h.le hhi]

end

/-- Settles O26: one window around the range, its field read by shift and mask and replaced by one
read-mask-write. -/
theorem windowFormEqualsTheCodec : Obligations.WindowFormEqualsTheCodec := by
  intro m nbits start stop value hw hr
  have hlt := (checkRange_none.1 hr).1
  exact ⟨windowRead_eq_readBits hlt m, windowWrite_eq_writeBits hlt value hw⟩

/-! ### The range byte by byte -/

/-- The first position of the range at or after byte `b`: byte `b` of the window covers the positions from
`chunkEdge b` up to `chunkEdge (b + 1)` (R110). -/
def chunkEdge (start stop b : Nat) : Nat := min stop (max start (8 * b))

section
variable {start stop : Nat} (h : start < stop)
include h

theorem chunkEdge_firstByte : chunkEdge start stop (firstByte start) = start := by
  have := (window_covers h).1
  unfold chunkEdge
  omega

theorem chunkEdge_after_lastByte : chunkEdge start stop (lastByte stop + 1) = stop := by
  have := (window_covers h).2
  unfold chunkEdge
  omega

variable {b : Nat} (hfirst : firstByte start ≤ b) (hlast : b ≤ lastByte stop)
include hfirst hlast

/-- Every byte of the window overlaps the range. -/
theorem window_byte_overlaps : 8 * b < stop ∧ start < 8 * (b + 1) := by
  have hhead := firstByte_headSkip start
  have hskip := headSkip_le start
  have htail := lastByte_tailExtent (stop := stop) (by omega)
  have hpos := tailExtent_pos stop
  omega

theorem coverLo_eq_chunkEdge : 8 * b + coverLo start b = chunkEdge start stop b := by
  obtain ⟨hbefore, hafter⟩ := window_byte_overlaps h hfirst hlast
  have hhead := firstByte_headSkip start
  have hskip := headSkip_le start
  unfold coverLo chunkEdge
  split <;> omega

theorem coverHi_eq_chunkEdge : 8 * b + coverHi stop b = chunkEdge start stop (b + 1) := by
  obtain ⟨hbefore, hafter⟩ := window_byte_overlaps h hfirst hlast
  have htail := lastByte_tailExtent (stop := stop) (by omega)
  have hpos := tailExtent_pos stop
  have hext := tailExtent_le stop
  unfold coverHi chunkEdge
  split <;> omega

theorem coverBits_eq_chunkEdge :
    coverBits start stop b = chunkEdge start stop (b + 1) - chunkEdge start stop b := by
  have hlo := coverLo_eq_chunkEdge h hfirst hlast
  have hhi := coverHi_eq_chunkEdge h hfirst hlast
  unfold coverBits
  omega

theorem coverShift_eq_chunkEdge :
    coverShift stop b = 8 * (b + 1) - chunkEdge start stop (b + 1) := by
  have hhi := coverHi_eq_chunkEdge h hfirst hlast
  unfold coverShift
  omega

/-- The positions byte `b` covers are positions of the byte, in order. -/
theorem chunkEdge_within_byte :
    8 * b ≤ chunkEdge start stop b ∧ chunkEdge start stop b ≤ chunkEdge start stop (b + 1) ∧
      chunkEdge start stop (b + 1) ≤ 8 * (b + 1) := by
  obtain ⟨hbefore, hafter⟩ := window_byte_overlaps h hfirst hlast
  unfold chunkEdge
  omega

end

theorem chunkEdge_le_stop (start stop b : Nat) : chunkEdge start stop b ≤ stop := min_le_left ..

theorem start_le_chunkEdge {start stop : Nat} (h : start < stop) (b : Nat) :
    start ≤ chunkEdge start stop b := le_min h.le (le_max_left ..)

/-! ### The chunked form -/

section
variable {start stop b : Nat} (h : start < stop) (hfirst : firstByte start ≤ b)
  (hlast : b ≤ lastByte stop)
include h hfirst hlast

/-- The chunk of byte `b` is the read of the positions it covers: byte `b` is their window. -/
theorem readChunk_eq_readBits (m : Memory) :
    readChunk m start stop b =
      readBits m (chunkEdge start stop b) (chunkEdge start stop (b + 1)) := by
  obtain ⟨h1, h2, h3⟩ := chunkEdge_within_byte h hfirst hlast
  rw [readChunk, Nat.and_two_pow_sub_one_eq_mod, coverShift_eq_chunkEdge h hfirst hlast,
    coverBits_eq_chunkEdge h hfirst hlast, ← readBits_byte, readBits_inside_window m h1 h2 h3]

/-- The read-mask-write of byte `b` is the write of the positions it covers. -/
theorem setByte_maskedByte {m : Memory} (value : Nat) (hw : Memory.wf m = true) :
    Memory.setByte m b
        (maskedByte (Memory.byte m b) (coverMask start stop b)
          (value &&& (2 ^ coverBits start stop b - 1)) (coverShift stop b)) =
      writeBits m (chunkEdge start stop b) (chunkEdge start stop (b + 1)) value := by
  obtain ⟨h1, h2, h3⟩ := chunkEdge_within_byte h hfirst hlast
  have hfield : maskedByte (Memory.byte m b) (coverMask start stop b)
      (value &&& (2 ^ coverBits start stop b - 1)) (coverShift stop b) =
      BitVec.ofNat 8 (replaceField (8 * (b + 1) - 8 * b) (coverBits start stop b)
        (coverShift stop b) (readBits m (8 * b) (8 * (b + 1))) value) := by
    rw [Nat.and_two_pow_sub_one_eq_mod, readBits_byte, show 8 * (b + 1) - 8 * b = 8 by omega]
    rfl
  rw [hfield, ← writeBits_byte _ _ hw, coverShift_eq_chunkEdge h hfirst hlast,
    coverBits_eq_chunkEdge h hfirst hlast, writeBits_replaceField value hw h1 h2 h3]

end

section
variable {start stop : Nat} (h : start < stop)
include h

/-- After `j` bytes the accumulator is the read up to where the next byte's positions begin. -/
theorem chunkedAcc_eq_readBits (m : Memory) {j : Nat} (hj : j ≤ windowBytes start stop) :
    chunkedAcc m start stop j = readBits m start (chunkEdge start stop (firstByte start + j)) := by
  induction j with
  | zero => simp [chunkedAcc, chunkEdge_firstByte h, readBits, readRun]
  | succ j ih =>
    have hcount := firstByte_add_windowBytes h
    have hfirst : firstByte start ≤ firstByte start + j := Nat.le_add_right ..
    have hlast : firstByte start + j ≤ lastByte stop := by omega
    have hmono := (chunkEdge_within_byte h hfirst hlast).2.1
    rw [chunkedAcc, ih (by omega), readChunk_eq_readBits h hfirst hlast,
      coverBits_eq_chunkEdge h hfirst hlast, ← Nat.shiftLeft_add_eq_or_of_lt (readBits_lt ..),
      Nat.shiftLeft_eq, ← readBits_split m (start_le_chunkEdge h _) hmono, Nat.add_assoc]

/-- The loop over the last `count` bytes of the window writes the positions they cover. -/
theorem chunkedLoop_eq_writeBits {m : Memory} {b count : Nat} (value : Nat)
    (hw : Memory.wf m = true) (hfirst : firstByte start ≤ b) (hcount : b + count = lastByte stop + 1) :
    chunkedLoop start stop value count b (stop - chunkEdge start stop b) m =
      writeBits m (chunkEdge start stop b) stop value := by
  induction count generalizing b m with
  | zero =>
    have hb : b = lastByte stop + 1 := hcount
    rw [hb, chunkEdge_after_lastByte h]
    simp [chunkedLoop, writeBits, writeRun]
  | succ count ih =>
    have hlast : b ≤ lastByte stop := by omega
    have hmono := (chunkEdge_within_byte h hfirst hlast).2.1
    have hstop := chunkEdge_le_stop start stop (b + 1)
    have hrem : stop - chunkEdge start stop b - coverBits start stop b =
        stop - chunkEdge start stop (b + 1) := by
      rw [coverBits_eq_chunkEdge h hfirst hlast]
      omega
    rw [chunkedLoop]
    simp only [hrem]
    rw [setByte_maskedByte h hfirst hlast _ hw,
      ih (wf_writeBits _ _ _ hw) (by omega) (by omega), Nat.shiftRight_eq_div_pow,
      ← writeBits_split m value hmono hstop]

end

/-- Settles O24: the accumulator after the whole window is the read of the range. -/
theorem chunkedReadEqualsReadBits : Obligations.ChunkedReadEqualsReadBits := by
  intro m nbits start stop hr
  have hlt := (checkRange_none.1 hr).1
  rw [chunkedRead, chunkedAcc_eq_readBits hlt m le_rfl, firstByte_add_windowBytes hlt,
    chunkEdge_after_lastByte hlt]

/-- Settles O25: the loop over the whole window, which begins at the range's start, writes the range. -/
theorem chunkedWriteEqualsWriteBits : Obligations.ChunkedWriteEqualsWriteBits := by
  intro m nbits start stop value hw hr
  have hlt := (checkRange_none.1 hr).1
  have hloop := chunkedLoop_eq_writeBits hlt value hw le_rfl (firstByte_add_windowBytes hlt)
  rwa [chunkEdge_firstByte hlt] at hloop

end Sys2Proof.Proofs
end

section
/-! SUPPORT. The range check as RDBITS and WRBITS show it (40_codec.md R100, R103, R104). -/

namespace Sys2Proof.Proofs

open Sys2Proof.Machine Sys2Proof.Laws Sys2Proof.Safety

/-! ### What the check answers -/

section
variable {nbits start stop : Nat}

theorem checkRange_empty (h : start ≥ stop) : checkRange nbits start stop = some .emptyRange :=
  if_pos h

theorem checkRange_outOfBounds (h1 : start < stop) (h2 : stop > nbits) :
    checkRange nbits start stop = some .outOfBounds := by
  rw [checkRange, if_neg (by omega), if_pos h2]

theorem checkRange_tooWide (h1 : start < stop) (h2 : stop ≤ nbits) (h3 : stop - start > 128) :
    checkRange nbits start stop = some .unsupportedWidth := by
  rw [checkRange, if_neg (by omega), if_neg (by omega), if_pos h3]

end

/-! ### The raw codec commands -/

/-- The command is RDBITS or WRBITS of this range. -/
def IsRawCodec (start stop : Nat) (i : Instr) : Prop :=
  i = .rdbits start stop ∨ ∃ value, i = .wrbits start stop value

theorem raise_eq_raised (e : FatalError) (s : State) : raise e s = .next (raised e s) := by
  simp [raise, emit, latch, raised, isHostError]

section
variable {s : State} {start stop : Nat} {i : Instr}

theorem exec_rawCodec_of_error {e : FatalError} (hf : s.flt = none) (hi : IsRawCodec start stop i)
    (hr : checkRange s.cfg.nbits start stop = some e) : exec i s = .next (raised e s) := by
  rw [← raise_eq_raised]
  obtain rfl | ⟨value, rfl⟩ := hi
  · simp [exec, execRdbits, unlessFaulted_none hf, hr]
  · simp [exec, execWrbits, unlessFaulted_none hf, hr]

theorem exec_rawCodec_of_ok (hf : s.flt = none) (hi : IsRawCodec start stop i)
    (hr : checkRange s.cfg.nbits start stop = none) :
    ∃ t d, exec i s = .next t ∧ t.flt = none ∧
      t.responses = s.responses ++ [{ status := .ok, data := d }] := by
  obtain rfl | ⟨value, rfl⟩ := hi
  · simp [exec, execRdbits, unlessFaulted_none hf, hr, respond, hf]
  · simp [exec, execWrbits, unlessFaulted_none hf, hr, respond, hf]

end

/-- Settles O16: the four cases are the answers of the check, and each answer ends the command. -/
theorem badRangesRaise : Obligations.BadRangesRaise := fun _ _ _ _ hf hi =>
  ⟨fun h => exec_rawCodec_of_error hf hi (checkRange_empty h),
    fun h1 h2 => exec_rawCodec_of_error hf hi (checkRange_outOfBounds h1 h2),
    fun h1 h2 h3 => exec_rawCodec_of_error hf hi (checkRange_tooWide h1 h2 h3),
    fun h1 h2 h3 => exec_rawCodec_of_ok hf hi (checkRange_none.2 ⟨h1, h2, h3⟩)⟩

end Sys2Proof.Proofs
end

section
/-! SUPPORT. The field accessors SET and GET (41_accessors.md R131 to R139): the field table of a
well-formed configuration, the conversions of an admitted kind, what SET and GET answer, and the
four statements that follow. -/

namespace Sys2Proof.Proofs

open Sys2Proof.Machine Sys2Proof.Laws Sys2Proof.Safety

/-! ### The field table of a well-formed configuration -/

theorem totalBits_take_succ {fields : List Field} {i : Nat} {fld : Field}
    (h : fields[i]? = some fld) :
    totalBits (fields.take (i + 1)) = totalBits (fields.take i) + fld.bits := by
  simp [totalBits, List.take_add_one, h]

theorem totalBits_take_mono (fields : List Field) {i j : Nat} (h : i ≤ j) :
    totalBits (fields.take i) ≤ totalBits (fields.take j) :=
  ((List.take_prefix_take_left h).sublist.map Field.bits).sum_le_sum (by simp)

/-- In a chained table a field starts where the widths of the fields before it end (R162). -/
theorem off_of_chained {fields : List Field} {off i : Nat} {fld : Field}
    (hc : fieldsChained off fields = true) (h : fields[i]? = some fld) :
    fld.off = off + totalBits (fields.take i) := by
  induction fields generalizing off i with
  | nil => simp at h
  | cons g fields ih =>
    simp only [fieldsChained, Bool.and_eq_true, decide_eq_true_eq] at hc
    obtain ⟨hoff, hrest⟩ := hc
    cases i with
    | zero =>
      obtain rfl : g = fld := by simpa using h
      simp [hoff, totalBits]
    | succ i =>
      rw [ih hrest (by simpa using h)]
      simp [totalBits, Nat.add_assoc]

section
variable {c : Config} (hwf : configWf c = true) {i : Nat} {fld : Field}
  (hi : c.fields[i]? = some fld)
include hwf hi

theorem fieldAdmitted_of_wf : fieldAdmitted fld = true := by
  simp only [configWf, Bool.and_eq_true] at hwf
  obtain ⟨⟨⟨hall, -⟩, -⟩, -⟩ := hwf
  exact List.all_eq_true.1 hall fld (List.mem_of_getElem? hi)

theorem off_of_wf : fld.off = totalBits (c.fields.take i) := by
  simp only [configWf, Bool.and_eq_true] at hwf
  obtain ⟨⟨⟨-, hchain⟩, -⟩, -⟩ := hwf
  simpa using off_of_chained hchain hi

theorem fieldStop_of_wf : fieldStop fld = totalBits (c.fields.take (i + 1)) := by
  rw [fieldStop, off_of_wf hwf hi, totalBits_take_succ hi]

theorem fieldStop_le_nbits : fieldStop fld ≤ c.nbits := by
  have htotal : c.nbits = totalBits c.fields := by
    simp only [configWf, Bool.and_eq_true, decide_eq_true_eq] at hwf
    obtain ⟨⟨-, hsize⟩, -⟩ := hwf
    exact hsize
  have hmono := totalBits_take_mono c.fields (Nat.le_max_left (i + 1) c.fields.length)
  rwa [List.take_of_length_le (Nat.le_max_right ..), ← fieldStop_of_wf hwf hi, ← htotal] at hmono

theorem fieldStop_le_off {j : Nat} {fld' : Field} (hj : c.fields[j]? = some fld') (hij : i < j) :
    fieldStop fld ≤ fld'.off := by
  rw [fieldStop_of_wf hwf hi, off_of_wf hwf hj]
  exact totalBits_take_mono c.fields hij

end

/-- The ranges of two fields share no position (20_memory.md R49). -/
theorem fields_disjoint {c : Config} {i j : Nat} {fld fld' : Field} (hwf : configWf c = true)
    (hi : c.fields[i]? = some fld) (hj : c.fields[j]? = some fld') (hij : i ≠ j) :
    fieldStop fld' ≤ fld.off ∨ fieldStop fld ≤ fld'.off := by
  obtain hlt | hgt := Nat.lt_or_gt_of_ne hij
  · exact .inr (fieldStop_le_off hwf hi hj hlt)
  · exact .inl (fieldStop_le_off hwf hj hi hgt)

/-! ### Admitted kinds and widths -/

theorem bits_le_of_kindAdmitted {kind : Kind} {bits : Nat} (h : kindAdmitted kind bits = true) :
    bits ≤ 64 := by
  cases kind with
  | prim n =>
    simp only [kindAdmitted, Bool.and_eq_true, decide_eq_true_eq] at h
    omega
  | bool =>
    obtain rfl : bits = 1 := of_decide_eq_true h
    decide
  | enum disc =>
    simp only [kindAdmitted, Bool.and_eq_true, decide_eq_true_eq] at h
    obtain ⟨⟨⟨hmax, -⟩, -⟩, -⟩ := h
    exact hmax.trans (by decide)

/-- The container holds the width it was fitted to (42_configuration.md R150). -/
theorem le_widthBits_of_bestFit {n : Nat} {w : NativeWidth} (h : bestFit n = .ok w) :
    n ≤ widthBits w := by
  unfold bestFit at h
  repeat' split at h
  all_goals cases h
  all_goals assumption

section
variable {fld : Field} (h : fieldAdmitted fld = true)
include h

theorem kindAdmitted_of_fieldAdmitted : kindAdmitted fld.kind fld.bits = true := by
  simp only [fieldAdmitted, Bool.and_eq_true] at h
  exact h.1

theorem bits_le_widthBits : fld.bits ≤ widthBits fld.cwid := by
  simp only [fieldAdmitted, Bool.and_eq_true] at h
  cases hfit : bestFit fld.bits with
  | error e => simp [hfit] at h
  | ok w =>
    have hw : fld.cwid = w := by simpa [hfit] using h.2
    exact hw ▸ le_widthBits_of_bestFit hfit

/-- What a field can hold without truncation is a valid operand: its container is no narrower. -/
theorem validTarget_of_representable {v : Nat} (hv : representable fld.kind v) :
    validTarget fld.kind fld.cwid v := by
  have hk := kindAdmitted_of_fieldAdmitted h
  have hwidth := bits_le_widthBits h
  cases hkind : fld.kind with
  | prim n =>
    simp only [hkind, kindAdmitted, Bool.and_eq_true, decide_eq_true_eq] at hk
    rw [hkind] at hv
    exact lt_of_lt_of_le hv (Nat.pow_le_pow_right two_pos (hk.2 ▸ hwidth))
  | bool => rwa [hkind] at hv
  | enum disc => rwa [hkind] at hv

end

/-! ### The conversions -/

/-- A valid Target value has a container value (R132). -/
theorem exists_toContainer {kind : Kind} {cwid : NativeWidth} {v : Nat}
    (h : validTarget kind cwid v) : ∃ c, toContainer kind cwid v = some c := by
  cases kind with
  | prim n => exact ⟨v, if_pos h⟩
  | bool => exact ⟨v, if_pos h⟩
  | enum disc => exact ⟨_, List.getElem?_eq_getElem h⟩

theorem allDistinct_iff_nodup {α : Type} [DecidableEq α] {xs : List α} :
    allDistinct xs = true ↔ xs.Nodup := by
  induction xs with
  | nil => simp [allDistinct]
  | cons x xs ih => simp [allDistinct, ih]

theorem enumAdmitted {disc : List Nat} {bits : Nat} (h : kindAdmitted (.enum disc) bits = true) :
    disc.Nodup ∧ ∀ d ∈ disc, d < 2 ^ bits := by
  simp only [kindAdmitted, Bool.and_eq_true, List.all_eq_true, decide_eq_true_eq,
    allDistinct_iff_nodup] at h
  obtain ⟨⟨-, hlt⟩, hnd⟩ := h
  exact ⟨hnd, hlt⟩

theorem fromContainer_enum {disc : List Nat} {i d : Nat} (hnd : disc.Nodup)
    (h : disc[i]? = some d) : fromContainer (.enum disc) d = .ok i := by
  obtain ⟨hlt, hget⟩ := List.getElem?_eq_some_iff.1 h
  have hidx : disc.idxOf d = i := by rw [← hget, hnd.idxOf_getElem]
  simp [fromContainer, List.mem_of_getElem? h, hidx]

/-- The container value of a representable Target value fits the field and converts back to it. -/
theorem fromContainer_toContainer {kind : Kind} {bits v c : Nat} {cwid : NativeWidth}
    (hk : kindAdmitted kind bits = true) (hv : representable kind v)
    (hc : toContainer kind cwid v = some c) : c < 2 ^ bits ∧ fromContainer kind c = .ok v := by
  cases kind with
  | prim n =>
    simp only [kindAdmitted, Bool.and_eq_true, decide_eq_true_eq] at hk
    simp only [toContainer, Option.ite_none_right_eq_some, Option.some.injEq] at hc
    obtain ⟨-, rfl⟩ := hc
    exact ⟨hk.2 ▸ hv, rfl⟩
  | bool =>
    obtain rfl : bits = 1 := of_decide_eq_true hk
    simp only [toContainer, Option.ite_none_right_eq_some, Option.some.injEq] at hc
    obtain ⟨hlt, rfl⟩ := hc
    exact ⟨hlt, by interval_cases v <;> rfl⟩
  | enum disc =>
    obtain ⟨hnd, hdisc⟩ := enumAdmitted hk
    exact ⟨hdisc c (List.mem_of_getElem? hc), fromContainer_enum hnd hc⟩

/-! ### What SET and GET answer -/

section
variable {s : State} {f : Nat} {fld : Field} (hflt : s.flt = none)
  (hfld : s.cfg.fields[f]? = some fld)
include hflt hfld

theorem exec_get_of_ok {w : Nat}
    (hr : checkRange s.cfg.nbits fld.off (fieldStop fld) = none)
    (hw : fromContainer fld.kind (readBits s.buf fld.off (fieldStop fld)) = .ok w) :
    exec (.get f) s = .next (emit .ok (BitVec.ofNat 128 w) s) := by
  simp [exec, execGet, unlessFaulted_none hflt, fieldAt, hfld, hr, hw, respond]

theorem exec_get_of_rangeError {e : FatalError}
    (hr : checkRange s.cfg.nbits fld.off (fieldStop fld) = some e) :
    exec (.get f) s = .next (raised e s) := by
  simp [exec, execGet, unlessFaulted_none hflt, fieldAt, hfld, hr, raise_eq_raised]

theorem exec_set_of_ok {v : Value} {c : Nat} (hc : toContainer fld.kind fld.cwid v.toNat = some c)
    (hr : checkRange s.cfg.nbits fld.off (fieldStop fld) = none) :
    exec (.set f v) s =
      .next (emit .ok 0#128 (setBuf (writeBits s.buf fld.off (fieldStop fld) c) s)) := by
  simp [exec, execSet, unlessFaulted_none hflt, fieldAt, hfld, hc, hr, respond]

theorem exec_set_of_rangeError {v : Value} {c : Nat} {e : FatalError}
    (hc : toContainer fld.kind fld.cwid v.toNat = some c)
    (hr : checkRange s.cfg.nbits fld.off (fieldStop fld) = some e) :
    exec (.set f v) s = .next (raised e s) := by
  simp [exec, execSet, unlessFaulted_none hflt, fieldAt, hfld, hc, hr, raise_eq_raised]

end

/-- A SET either ends with an error and its response, or writes the field's range. -/
theorem exec_set_cases {s t : State} {f : Nat} {v : Value} (h : exec (.set f v) s = .next t) :
    (∃ x d, x ≠ .ok ∧ t.responses = s.responses ++ [{ status := x, data := d }]) ∨
    (∃ fld c, s.flt = none ∧ s.cfg.fields[f]? = some fld ∧
      toContainer fld.kind fld.cwid v.toNat = some c ∧
      checkRange s.cfg.nbits fld.off (fieldStop fld) = none ∧
      t = emit .ok 0#128 (setBuf (writeBits s.buf fld.off (fieldStop fld) c) s)) := by
  simp only [exec, execSet] at h
  cases hflt : s.flt with
  | some e =>
    rw [unlessFaulted_some hflt] at h
    cases h
    exact .inl ⟨_, _, by simp, rfl⟩
  | none =>
    rw [unlessFaulted_none hflt] at h
    split at h
    · cases h
      exact .inl ⟨_, _, by simp, rfl⟩
    next fld hfld =>
      split at h
      · cases h
        exact .inl ⟨_, _, by simp, rfl⟩
      next c hc =>
        split at h
        · cases h
          exact .inl ⟨_, _, by simp, rfl⟩
        next hr =>
          cases h
          exact .inr ⟨fld, c, rfl, hfld, hc, hr, rfl⟩

/-- The response of GET depends on the configuration, the latch and the field's own bits only. -/
theorem exec_get_same_response {s t : State} {f : Nat} {fld : Field}
    (hflt : s.flt = none) (hflt' : t.flt = none) (hcfg : t.cfg = s.cfg)
    (hfld : s.cfg.fields[f]? = some fld)
    (hread : readBits t.buf fld.off (fieldStop fld) = readBits s.buf fld.off (fieldStop fld)) :
    ∃ r u u', exec (.get f) s = .next u ∧ exec (.get f) t = .next u' ∧
      u.responses = s.responses ++ [r] ∧ u'.responses = t.responses ++ [r] := by
  simp only [exec, execGet, unlessFaulted_none hflt, unlessFaulted_none hflt', fieldAt, hcfg, hfld,
    hread]
  cases checkRange s.cfg.nbits fld.off (fieldStop fld) with
  | some e => exact ⟨_, _, _, rfl, rfl, rfl, rfl⟩
  | none =>
    cases fromContainer fld.kind (readBits s.buf fld.off (fieldStop fld)) with
    | ok w => exact ⟨_, _, _, rfl, rfl, rfl, rfl⟩
    | error e => cases e <;> exact ⟨_, _, _, rfl, rfl, rfl, rfl⟩

/-! ### SET, then GET -/

/-- The range of a field of non-zero width is legal. -/
theorem checkRange_field {c : Config} {f : Nat} {fld : Field} (hwf : configWf c = true)
    (hfld : c.fields[f]? = some fld) (hbits : 1 ≤ fld.bits) :
    checkRange c.nbits fld.off (fieldStop fld) = none := by
  have hadm := kindAdmitted_of_fieldAdmitted (fieldAdmitted_of_wf hwf hfld)
  have hwidth := bits_le_of_kindAdmitted hadm
  have hstop : fieldStop fld = fld.off + fld.bits := rfl
  exact checkRange_none.2 ⟨by omega, fieldStop_le_nbits hwf hfld, by omega⟩

/-- SET writes the container value cut to the field's width, and GET converts what was written. -/
theorem exec_set_get {s : State} {f c w : Nat} {fld : Field} {v : Value} (hinv : Inv s)
    (hflt : s.flt = none) (hfld : s.cfg.fields[f]? = some fld) (hbits : 1 ≤ fld.bits)
    (hc : toContainer fld.kind fld.cwid v.toNat = some c)
    (hw : fromContainer fld.kind (c % 2 ^ fld.bits) = .ok w) :
    ∃ t u, exec (.set f v) s = .next t ∧ exec (.get f) t = .next u ∧
      u.responses = s.responses ++
        [{ status := .ok, data := 0 }, { status := .ok, data := BitVec.ofNat 128 w }] := by
  have hr := checkRange_field hinv.1 hfld hbits
  have hread : readBits (writeBits s.buf fld.off (fieldStop fld) c) fld.off (fieldStop fld) =
      c % 2 ^ fld.bits := by
    rw [readBits_writeBits_same c hinv.2.1 (checkRange_none.1 hr).1, fieldStop,
      Nat.add_sub_cancel_left]
  rw [← hread] at hw
  refine ⟨_, _, exec_set_of_ok hflt hfld hc hr, exec_get_of_ok ?_ ?_ hr hw, by simp⟩
  · exact hflt
  · exact hfld

/-- Settles O31: the container value fits the field, so nothing is cut, and it converts back. -/
theorem setThenGetReturnsTheValue : Obligations.SetThenGetReturnsTheValue := by
  intro s f fld v hinv hflt hfld hbits hv
  have hadm := fieldAdmitted_of_wf hinv.1 hfld
  obtain ⟨c, hc⟩ := exists_toContainer (validTarget_of_representable hadm hv)
  obtain ⟨hlt, hback⟩ := fromContainer_toContainer (kindAdmitted_of_fieldAdmitted hadm) hv hc
  rw [← Nat.mod_eq_of_lt hlt] at hback
  simpa using exec_set_get hinv hflt hfld hbits hc hback

/-- Settles O32: the container value of a `prim` is the operand; the field keeps its low bits. -/
theorem setTruncatesWideValues : Obligations.SetTruncatesWideValues := by
  intro s f n fld v hinv hflt hfld hbits hkind _ hv
  have hadm := kindAdmitted_of_fieldAdmitted (fieldAdmitted_of_wf hinv.1 hfld)
  have hn : fld.bits = n := by
    simp only [hkind, kindAdmitted, Bool.and_eq_true, decide_eq_true_eq] at hadm
    exact hadm.2
  have hc : toContainer fld.kind fld.cwid v.toNat = some v.toNat := by
    rw [hkind]
    exact if_pos hv
  refine exec_set_get hinv hflt hfld hbits hc ?_
  rw [hkind, hn, fromContainer]

/-- Settles O33: a SET that responds OK wrote its own range, disjoint from the other field's. -/
theorem setLeavesOtherFieldsAlone : Obligations.SetLeavesOtherFieldsAlone := by
  intro s t i j v fld hinv hij hset hok hfld
  obtain ⟨x, d, hx, hresp⟩ | ⟨fld', c, hflt, hfld', -, hr, rfl⟩ := exec_set_cases hset
  · rw [hok] at hresp
    simp [hx.symm] at hresp
  · have hle := (checkRange_none.1 hr).1.le
    have hdisj := fields_disjoint hinv.1 hfld' hfld hij
    refine ⟨fun p h1 h2 => bit_writeBits_outside c hinv.2.1 hle ?_,
      exec_get_same_response hflt hflt rfl hfld (readBits_writeBits_disjoint c hinv.2.1 hle hdisj)⟩
    unfold fieldStop at hdisj ⊢
    omega

/-- Settles O35: a field of no width has an empty range, and the next one starts where it does. -/
theorem zeroWidthFieldsRaise : Obligations.ZeroWidthFieldsRaise := by
  intro s f fld hwf hflt hfld hbits
  have hstop : fieldStop fld = fld.off := by rw [fieldStop, hbits, Nat.add_zero]
  have hr : checkRange s.cfg.nbits fld.off (fieldStop fld) = some .emptyRange :=
    checkRange_empty hstop.le
  refine ⟨exec_get_of_rangeError hflt hfld hr, fun v hv => ?_, fun next hnext => ?_⟩
  · obtain ⟨c, hc⟩ := exists_toContainer hv
    exact exec_set_of_rangeError hflt hfld hc hr
  · rw [off_of_wf hwf hnext, ← fieldStop_of_wf hwf hfld, hstop]

end Sys2Proof.Proofs
end

section
/-! SUPPORT. The width catalog and the enum derivation (42_configuration.md R150, R151, R155 to R159):
what `best_fit` returns, what a derivation that succeeds has checked, and the two statements that
follow. -/

namespace Sys2Proof.Proofs

open Sys2Proof.Machine Sys2Proof.Safety

/-! ### The width catalog -/

theorem eight_le_widthBits (n : NativeWidth) : 8 ≤ widthBits n := by
  cases n <;> decide

/-- No native width that holds `w` is smaller than `best_fit(w)` (R150): each test of `best_fit` that
fails excludes one width. -/
theorem widthBits_le_of_bestFit {w : Nat} {n n' : NativeWidth} (h : bestFit w = .ok n)
    (h' : w ≤ widthBits n') : widthBits n ≤ widthBits n' := by
  unfold bestFit at h
  repeat' split at h
  all_goals cases h
  all_goals cases n' <;> simp only [widthBits] at h' ⊢ <;> omega

theorem exists_bestFit {w : Nat} (h : w ≤ 128) : ∃ n, bestFit w = .ok n := by
  unfold bestFit
  repeat' split
  all_goals exact ⟨_, rfl⟩

theorem bestFit_unsupported {w : Nat} (h : w > 128) : bestFit w = .error .unsupportedWidth := by
  unfold bestFit
  repeat' rw [if_neg (by omega)]

/-- Settles O49: `best_fit(w)` holds `w` and no smaller width does, so the result for a wider range
holds the narrower one too. -/
theorem bestFitIsTheSmallestWidth : Obligations.BestFitIsTheSmallestWidth := by
  refine ⟨fun w hw => ?_, fun w => bestFit_unsupported, fun w1 w2 n1 n2 hle h1 h2 => ?_⟩
  · obtain ⟨n, hn⟩ := exists_bestFit hw
    exact ⟨n, hn, le_widthBits_of_bestFit hn, eight_le_widthBits n,
      fun n' => widthBits_le_of_bestFit hn⟩
  · exact widthBits_le_of_bestFit h1 (hle.trans (le_widthBits_of_bestFit h2))

/-! ### The enum derivation -/

theorem isPowerOfTwo_iff {count : Nat} : isPowerOfTwo count = true ↔ count = 2 ^ Nat.log2 count := by
  rw [isPowerOfTwo, decide_eq_true_eq, eq_comm]

/-- The literal at each index is the one its variant declares, whatever stands before it (R157). -/
theorem getElem?_declaredLiterals (k : Nat) (vs : List Variant) (i : Nat) :
    (declaredLiterals k vs)[i]? = vs[i]?.map (declares · (k + i)) := by
  induction vs generalizing k i with
  | nil => rfl
  | cons v vs ih =>
    cases i with
    | zero => cases v <;> rfl
    | succ i =>
      have hindex : k + (i + 1) = k + 1 + i := by omega
      cases v <;> simp [declaredLiterals, ih, hindex]

@[simp] theorem length_declaredLiterals (k : Nat) (vs : List Variant) :
    (declaredLiterals k vs).length = vs.length := by
  induction vs generalizing k with
  | nil => rfl
  | cons v vs ih => cases v <;> simp [declaredLiterals, ih]

/-- No error applies exactly when the count is a power of two and the declared literals are distinct
values of `BITS` bits (R155, R158, R159). -/
theorem enumErrors_eq_nil {vs : List Variant} :
    enumErrors vs = [] ↔ vs.length = 2 ^ Nat.log2 vs.length ∧
      (∀ d ∈ declaredLiterals 0 vs, 0 ≤ d ∧ d < 2 ^ Nat.log2 vs.length) ∧
      (declaredLiterals 0 vs).Nodup := by
  rw [← isPowerOfTwo_iff, ← allDistinct_iff_nodup]
  cases hpow : isPowerOfTwo vs.length <;> simp [enumErrors, overflows, hpow]

theorem makeSpecifier_eq_ok {kind : Kind} {bits : Nat} {sp : Specifier}
    (h : makeSpecifier kind bits = .ok sp) :
    sp.kind = kind ∧ sp.bits = bits ∧ bestFit sp.bits = .ok sp.cwid := by
  unfold makeSpecifier at h
  split at h
  next cwid hfit =>
    cases h
    exact ⟨rfl, rfl, hfit⟩
  · cases h

/-- A derivation that succeeds met no error and packed the declared literals (R155 to R159). -/
theorem deriveEnum_eq_ok {vs : List Variant} {sp : Specifier} (h : deriveEnum vs = .ok sp) :
    enumErrors vs = [] ∧ sp.kind = .enum ((declaredLiterals 0 vs).map Int.toNat) ∧
      sp.bits = Nat.log2 vs.length ∧ bestFit sp.bits = .ok sp.cwid := by
  unfold deriveEnum at h
  split at h
  next herrors => exact ⟨herrors, makeSpecifier_eq_ok h⟩
  · cases h

theorem nodup_map_toNat {ds : List Int} (hnonneg : ∀ d ∈ ds, 0 ≤ d) (hnd : ds.Nodup) :
    (ds.map Int.toNat).Nodup :=
  hnd.map_on fun d hd e he heq => by
    have := hnonneg d hd
    have := hnonneg e he
    omega

/-- `n` distinct numbers below `n` are all of them, each at one index (R159). -/
theorem existsUnique_index_of_nodup {ds : List Nat} (hnd : ds.Nodup)
    (hlt : ∀ d ∈ ds, d < ds.length) {r : Nat} (hr : r < ds.length) :
    ∃! i : Nat, ds[i]? = some r := by
  have hsub : ds.toFinset ⊆ Finset.range ds.length := fun d hd =>
    Finset.mem_range.2 (hlt d (List.mem_toFinset.1 hd))
  have hall : ds.toFinset = Finset.range ds.length :=
    Finset.eq_of_subset_of_card_le hsub (by rw [Finset.card_range, List.toFinset_card_of_nodup hnd])
  have hmem : r ∈ ds := by
    rwa [← List.mem_toFinset, hall, Finset.mem_range]
  obtain ⟨i, hi⟩ := List.getElem?_of_mem hmem
  have hilt : i < ds.length := (List.getElem?_eq_some_iff.1 hi).1
  exact ⟨i, hi, fun j hj => ((List.getElem?_inj hilt hnd).1 (hi.trans hj.symm)).symm⟩

/-- Settles O50: the discriminants are `2^BITS` distinct values of `BITS` bits. -/
theorem enumDerivationIsABijection : Obligations.EnumDerivationIsABijection := by
  intro vs sp h
  obtain ⟨herrors, hkind, hbits, hfit⟩ := deriveEnum_eq_ok h
  obtain ⟨hcount, hrange, hnd⟩ := enumErrors_eq_nil.1 herrors
  rw [← hbits] at hcount hrange
  have hlen : ((declaredLiterals 0 vs).map Int.toNat).length = vs.length := by simp
  refine ⟨_, hkind, hcount, hlen, hfit, fun i v d hv hd => ?_, fun r hr => ?_⟩
  · have hlit : (declaredLiterals 0 vs)[i]? = some (declares v i) := by
      simp [getElem?_declaredLiterals, hv]
    obtain rfl : (declares v i).toNat = d := by simpa [hlit] using hd
    exact Int.toNat_of_nonneg (hrange _ (List.mem_of_getElem? hlit)).1
  · rw [← hcount, ← hlen] at hr
    refine existsUnique_index_of_nodup (nodup_map_toNat (fun d hd => (hrange d hd).1) hnd) ?_ hr
    intro d hd
    obtain ⟨e, he, rfl⟩ := List.mem_map.1 hd
    rw [hlen, hcount, Int.toNat_lt (hrange e he).1]
    exact_mod_cast (hrange e he).2

end Sys2Proof.Proofs
end

section
/-! SUPPORT. The order of the tests (60_exceptions.md R197): the branches of GET, SET and NEW that the
sections above leave out, the tests that concern each opcode, and the status with which each command
ends. -/

namespace Sys2Proof.Proofs

open Sys2Proof.Machine Sys2Proof.Laws Sys2Proof.Safety

/-! ### The branches of GET, SET and NEW that end in a response alone -/

/-- A response that changes nothing else of the unit, in the words of the statements. -/
theorem emit_eq_answered (x : Status) (d : Value) (s : State) : emit x d s = answered x d s := by
  cases x <;> simp [emit, answered, isHostError]

/-- No Target value but a valid one has a container value (R132). -/
theorem toContainer_of_not_validTarget {kind : Kind} {cwid : NativeWidth} {v : Nat}
    (h : ¬validTarget kind cwid v) : toContainer kind cwid v = none := by
  cases kind with
  | prim n => exact if_neg h
  | bool => exact if_neg h
  | enum disc => exact List.getElem?_eq_none (Nat.le_of_not_lt h)

section
variable {s : State} {f : Nat} (hflt : s.flt = none)
include hflt

theorem exec_get_of_noField (hf : s.cfg.fields.length ≤ f) :
    exec (.get f) s = .next (emit .badOperand 0#128 s) := by
  simp [exec, execGet, unlessFaulted_none hflt, fieldAt, hf, refuseBadOperand]

theorem exec_set_of_noField (v : Value) (hf : s.cfg.fields.length ≤ f) :
    exec (.set f v) s = .next (emit .badOperand 0#128 s) := by
  simp [exec, execSet, unlessFaulted_none hflt, fieldAt, hf, refuseBadOperand]

theorem exec_set_of_invalidTarget {fld : Field} {v : Value} (hfld : s.cfg.fields[f]? = some fld)
    (hv : ¬validTarget fld.kind fld.cwid v.toNat) :
    exec (.set f v) s = .next (emit .badOperand 0#128 s) := by
  simp [exec, execSet, unlessFaulted_none hflt, fieldAt, hfld, toContainer_of_not_validTarget hv,
    refuseBadOperand]

theorem exec_get_of_malformedRepr {fld : Field} (hfld : s.cfg.fields[f]? = some fld)
    (hr : checkRange s.cfg.nbits fld.off (fieldStop fld) = none)
    (hw : fromContainer fld.kind (readBits s.buf fld.off (fieldStop fld)) = .error .malformedRepr) :
    exec (.get f) s = .next (raised .malformedRepr s) := by
  simp [exec, execGet, unlessFaulted_none hflt, fieldAt, hfld, hr, hw, raise_eq_raised]

theorem exec_get_of_invalidDiscriminant {fld : Field} (hfld : s.cfg.fields[f]? = some fld)
    (hr : checkRange s.cfg.nbits fld.off (fieldStop fld) = none)
    (hw : fromContainer fld.kind (readBits s.buf fld.off (fieldStop fld)) =
      .error .invalidDiscriminant) :
    exec (.get f) s = .next (answered .invalidDiscriminant 0 s) := by
  rw [← emit_eq_answered]
  simp [exec, execGet, unlessFaulted_none hflt, fieldAt, hfld, hr, hw, failInvalidDiscriminant]

theorem exec_new_of_running :
    exec .new s = .next (emit .ok 0#128 (setBuf (Memory.zeroFill s.cfg.nb s.buf) s)) := by
  simp [exec, execNew, unlessFaulted_none hflt, respond]

end

theorem runCommand_of_decode_ok {s : State} {w : Nat} {i : Instr} (h : decode s.cfg.pw w = .ok i) :
    runCommand w s = exec i s := by
  simp [runCommand, h]

theorem runCommand_of_illegal {s : State} {w : Nat} (hflt : s.flt = none)
    (hop : commandOp s.cfg.pw w ∉ [1, 2, 3, 4, 5]) :
    runCommand w s = .next (emit .illegalCommand 0#128 s) := by
  simp [runCommand, decode_illegal hop, illegalCommand, unlessFaulted_none hflt, refuseIllegalCommand]

/-! ### The tests of each opcode -/

/-- The three tests of the range check (40_codec.md R100). -/
def rangeTests (nbits start stop : Nat) : List (Prop × Status) :=
  [(start ≥ stop, .fatal .emptyRange), (stop > nbits, .fatal .outOfBounds),
   (stop - start > 128, .fatal .unsupportedWidth)]

/-- The two tests of the conversion of field bits (41_accessors.md R131). -/
def conversionTests (kind : Kind) (raw : Nat) : List (Prop × Status) :=
  [(kind = .bool ∧ raw ≥ 2, .fatal .malformedRepr),
   (∃ disc, kind = .enum disc ∧ raw ∉ disc, .invalidDiscriminant)]

section
variable {s : State} {w : Nat} {x : Status}

theorem endsWith_orderedTests_of_faulted (h : s.flt ≠ none) :
    endsWith (orderedTests s w) .faulted := .inl ⟨h, rfl⟩

variable (hflt : s.flt = none)
include hflt

theorem endsWith_orderedTests_illegal (hop : commandOp s.cfg.pw w ∉ [1, 2, 3, 4, 5]) :
    endsWith (orderedTests s w) .illegalCommand := by
  have hrange : ¬(1 ≤ commandOp s.cfg.pw w ∧ commandOp s.cfg.pw w ≤ 5) := by
    simp only [List.mem_cons, List.not_mem_nil, or_false] at hop
    omega
  exact .inr ⟨not_not.2 hflt, .inl ⟨hrange, rfl⟩⟩

theorem endsWith_orderedTests_rawCodec
    (hop : commandOp s.cfg.pw w = 1 ∨ commandOp s.cfg.pw w = 2) :
    endsWith (orderedTests s w) x ↔
      endsWith (rangeTests s.cfg.nbits (commandA s.cfg.pw w) (commandB s.cfg.pw w)) x := by
  obtain hop | hop := hop <;> simp [orderedTests, rangeTests, endsWith, accessedRange, hflt, hop]

theorem endsWith_orderedTests_noField
    (hop : commandOp s.cfg.pw w = 3 ∨ commandOp s.cfg.pw w = 4)
    (hf : s.cfg.fields.length ≤ commandA s.cfg.pw w) :
    endsWith (orderedTests s w) .badOperand := by
  obtain hop | hop := hop <;> simp [orderedTests, endsWith, hflt, hop, hf]

theorem endsWith_orderedTests_get {fld : Field} (hop : commandOp s.cfg.pw w = 3)
    (hfld : s.cfg.fields[commandA s.cfg.pw w]? = some fld) :
    endsWith (orderedTests s w) x ↔
      endsWith (rangeTests s.cfg.nbits fld.off (fieldStop fld) ++
        conversionTests fld.kind (weightedSum s.buf fld.off (fieldStop fld))) x := by
  have hlt := Nat.not_le.2 (List.getElem?_eq_some_iff.1 hfld).1
  simp [orderedTests, rangeTests, conversionTests, endsWith, accessedRange, fieldStop, hflt, hop,
    hfld, hlt]

theorem endsWith_orderedTests_set_invalidTarget {fld : Field} (hop : commandOp s.cfg.pw w = 4)
    (hfld : s.cfg.fields[commandA s.cfg.pw w]? = some fld)
    (hv : ¬validTarget fld.kind fld.cwid (commandV w).toNat) :
    endsWith (orderedTests s w) .badOperand := by
  have hlt := Nat.not_le.2 (List.getElem?_eq_some_iff.1 hfld).1
  simp [orderedTests, endsWith, hflt, hop, hfld, hlt, hv]

theorem endsWith_orderedTests_set {fld : Field} (hop : commandOp s.cfg.pw w = 4)
    (hfld : s.cfg.fields[commandA s.cfg.pw w]? = some fld)
    (hv : validTarget fld.kind fld.cwid (commandV w).toNat) :
    endsWith (orderedTests s w) x ↔
      endsWith (rangeTests s.cfg.nbits fld.off (fieldStop fld)) x := by
  have hlt := Nat.not_le.2 (List.getElem?_eq_some_iff.1 hfld).1
  simp [orderedTests, rangeTests, endsWith, accessedRange, fieldStop, hflt, hop, hfld, hlt, hv]

theorem endsWith_orderedTests_new (hop : commandOp s.cfg.pw w = 5) :
    endsWith (orderedTests s w) .ok := by
  simp [orderedTests, endsWith, hflt, hop]

end

/-! ### Ending by a list of tests -/

/-- The outcome is a next state with one response more, of the status the tests give. -/
def EndsBy (s : State) (o : StepOutcome) (tests : List (Prop × Status)) : Prop :=
  ∃ t r, o = .next t ∧ t.responses = s.responses ++ [r] ∧ endsWith tests r.status

section
variable {s : State} {o : StepOutcome} {tests tests' : List (Prop × Status)}

theorem EndsBy.congr (h : EndsBy s o tests') (hiff : ∀ x, endsWith tests x ↔ endsWith tests' x) :
    EndsBy s o tests := by
  obtain ⟨t, r, ho, hr, hends⟩ := h
  exact ⟨t, r, ho, hr, (hiff _).2 hends⟩

theorem endsBy_emit {t : State} {x : Status} {d : Value} (ho : o = .next (emit x d t))
    (ht : t.responses = s.responses) (hx : endsWith tests x) : EndsBy s o tests :=
  ⟨_, _, ho, by rw [emit_responses, ht], hx⟩

theorem endsBy_raised {e : FatalError} (ho : o = .next (raised e s))
    (hx : endsWith tests (.fatal e)) : EndsBy s o tests :=
  ⟨_, _, ho, rfl, hx⟩

/-- A command that raises what the range check answers, and goes on when it answers nothing, ends by
the three tests of the range before its other tests. -/
theorem endsBy_rangeTests {nbits start stop : Nat}
    (herror : ∀ e, checkRange nbits start stop = some e → o = .next (raised e s))
    (hok : checkRange nbits start stop = none → EndsBy s o tests) :
    EndsBy s o (rangeTests nbits start stop ++ tests) := by
  cases hr : checkRange nbits start stop with
  | some e =>
    refine endsBy_raised (herror e hr) ?_
    obtain ⟨rfl, h1⟩ | ⟨rfl, h1, h2⟩ | ⟨rfl, h1, h2, h3⟩ := checkRange_some hr
    · exact .inl ⟨h1, rfl⟩
    · exact .inr ⟨by omega, .inl ⟨h2, rfl⟩⟩
    · exact .inr ⟨by omega, .inr ⟨by omega, .inl ⟨h3, rfl⟩⟩⟩
  | none =>
    obtain ⟨h1, h2, h3⟩ := checkRange_none.1 hr
    exact (hok hr).congr fun x => by
      simp [rangeTests, endsWith, Nat.not_le.2 h1, Nat.not_lt.2 h2, Nat.not_lt.2 h3]

end

/-! ### Each command ends by its tests -/

section
variable {s : State} (hflt : s.flt = none)
include hflt

theorem endsBy_rawCodec {start stop : Nat} {i : Instr} (hi : IsRawCodec start stop i) :
    EndsBy s (exec i s) (rangeTests s.cfg.nbits start stop) := by
  rw [← List.append_nil (rangeTests _ _ _)]
  refine endsBy_rangeTests (fun e he => exec_rawCodec_of_error hflt hi he) fun hok => ?_
  obtain ⟨t, d, ht, -, hresp⟩ := exec_rawCodec_of_ok hflt hi hok
  exact ⟨t, _, ht, hresp, rfl⟩

/-- GET past its range check ends by the conversion of the bits it reads. -/
theorem endsBy_get_conversion {f : Nat} {fld : Field} (hfld : s.cfg.fields[f]? = some fld)
    (hr : checkRange s.cfg.nbits fld.off (fieldStop fld) = none) :
    EndsBy s (exec (.get f) s)
      (conversionTests fld.kind (readBits s.buf fld.off (fieldStop fld))) := by
  have hok := fun w => exec_get_of_ok (w := w) hflt hfld hr
  have hbad := exec_get_of_malformedRepr hflt hfld hr
  have hforeign := exec_get_of_invalidDiscriminant hflt hfld hr
  generalize readBits s.buf fld.off (fieldStop fld) = raw at hok hbad hforeign ⊢
  cases hkind : fld.kind with
  | prim n =>
    rw [hkind] at hok
    exact endsBy_emit (hok raw rfl) rfl (by simp [conversionTests, endsWith])
  | bool =>
    rw [hkind] at hok hbad
    by_cases hraw : raw ≥ 2
    · have hconv : fromContainer .bool raw = .error .malformedRepr :=
        (if_neg (by omega)).trans (if_neg (by omega))
      exact endsBy_raised (hbad hconv) (.inl ⟨⟨rfl, hraw⟩, rfl⟩)
    · have hconv : fromContainer .bool raw = .ok raw := by
        interval_cases raw <;> rfl
      exact endsBy_emit (hok raw hconv) rfl (by simp [conversionTests, endsWith, hraw])
  | enum disc =>
    rw [hkind] at hok hforeign
    by_cases hraw : raw ∈ disc
    · exact endsBy_emit (hok _ (if_pos hraw)) rfl (by simp [conversionTests, endsWith, hraw])
    · exact endsBy_emit (by rw [hforeign (if_neg hraw), emit_eq_answered]) rfl
        (by simp [conversionTests, endsWith, hraw])

theorem endsBy_get {f : Nat} {fld : Field} (hfld : s.cfg.fields[f]? = some fld) :
    EndsBy s (exec (.get f) s) (rangeTests s.cfg.nbits fld.off (fieldStop fld) ++
      conversionTests fld.kind (weightedSum s.buf fld.off (fieldStop fld))) := by
  refine endsBy_rangeTests (fun e he => exec_get_of_rangeError hflt hfld he) fun hr => ?_
  rw [← readBits_eq_weightedSum _ (checkRange_none.1 hr).1.le]
  exact endsBy_get_conversion hflt hfld hr

theorem endsBy_set {f : Nat} {fld : Field} {v : Value} (hfld : s.cfg.fields[f]? = some fld)
    (hv : validTarget fld.kind fld.cwid v.toNat) :
    EndsBy s (exec (.set f v) s) (rangeTests s.cfg.nbits fld.off (fieldStop fld)) := by
  obtain ⟨c, hc⟩ := exists_toContainer hv
  rw [← List.append_nil (rangeTests _ _ _)]
  exact endsBy_rangeTests (fun e he => exec_set_of_rangeError hflt hfld hc he) fun hr =>
    endsBy_emit (exec_set_of_ok hflt hfld hc hr) rfl rfl

end

/-! ### Each command word ends by the ordered tests -/

section
variable {s : State} {w : Nat} (hflt : s.flt = none)
include hflt

theorem endsBy_word_rawCodec {i : Instr} (hop : commandOp s.cfg.pw w = 1 ∨ commandOp s.cfg.pw w = 2)
    (hi : IsRawCodec (commandA s.cfg.pw w) (commandB s.cfg.pw w) i)
    (hdec : decode s.cfg.pw w = .ok i) : EndsBy s (runCommand w s) (orderedTests s w) := by
  rw [runCommand_of_decode_ok hdec]
  exact (endsBy_rawCodec hflt hi).congr fun _ => endsWith_orderedTests_rawCodec hflt hop

theorem endsBy_word_get (hop : commandOp s.cfg.pw w = 3) :
    EndsBy s (runCommand w s) (orderedTests s w) := by
  rw [runCommand_of_decode_ok (decode_op_three hop)]
  cases hfld : s.cfg.fields[commandA s.cfg.pw w]? with
  | none =>
    have hf := List.getElem?_eq_none_iff.1 hfld
    exact endsBy_emit (exec_get_of_noField hflt hf) rfl
      (endsWith_orderedTests_noField hflt (.inl hop) hf)
  | some fld => exact (endsBy_get hflt hfld).congr fun _ => endsWith_orderedTests_get hflt hop hfld

/-- The operand test comes before the range tests (R134). -/
theorem endsBy_word_set (hop : commandOp s.cfg.pw w = 4) :
    EndsBy s (runCommand w s) (orderedTests s w) := by
  rw [runCommand_of_decode_ok (decode_op_four hop)]
  cases hfld : s.cfg.fields[commandA s.cfg.pw w]? with
  | none =>
    have hf := List.getElem?_eq_none_iff.1 hfld
    exact endsBy_emit (exec_set_of_noField hflt _ hf) rfl
      (endsWith_orderedTests_noField hflt (.inr hop) hf)
  | some fld =>
    by_cases hv : validTarget fld.kind fld.cwid (commandV w).toNat
    · exact (endsBy_set hflt hfld hv).congr fun _ => endsWith_orderedTests_set hflt hop hfld hv
    · exact endsBy_emit (exec_set_of_invalidTarget hflt hfld hv) rfl
        (endsWith_orderedTests_set_invalidTarget hflt hop hfld hv)

theorem endsBy_word_new (hop : commandOp s.cfg.pw w = 5) :
    EndsBy s (runCommand w s) (orderedTests s w) := by
  rw [runCommand_of_decode_ok (decode_op_five hop)]
  exact endsBy_emit (exec_new_of_running hflt) rfl (endsWith_orderedTests_new hflt hop)

end

/-- Settles O38: the latch is tested first and the opcode second; each of the five opcodes then ends by
the tests that concern it. -/
theorem checksRunInTheFixedOrder : Obligations.ChecksRunInTheFixedOrder := by
  intro s w
  cases hflt : s.flt with
  | some e =>
    exact endsBy_emit (runCommand_of_faulted w hflt) rfl
      (endsWith_orderedTests_of_faulted (by simp [hflt]))
  | none =>
    by_cases hop : commandOp s.cfg.pw w ∈ [1, 2, 3, 4, 5]
    · simp only [List.mem_cons, List.not_mem_nil, or_false] at hop
      obtain hop | hop | hop | hop | hop := hop
      · exact endsBy_word_rawCodec hflt (.inl hop) (.inl rfl) (decode_op_one hop)
      · exact endsBy_word_rawCodec hflt (.inr hop) (.inr ⟨_, rfl⟩) (decode_op_two hop)
      · exact endsBy_word_get hflt hop
      · exact endsBy_word_set hflt hop
      · exact endsBy_word_new hflt hop
    · exact endsBy_emit (runCommand_of_illegal hflt hop) rfl (endsWith_orderedTests_illegal hflt hop)

end Sys2Proof.Proofs
end

section
/-! SUPPORT. The recoverable error (60_exceptions.md R194): no command reads the responses on record or
the model's mark, so the command after an InvalidDiscriminant runs as from the state before it. -/

namespace Sys2Proof.Proofs

open Sys2Proof.Machine Sys2Proof.Laws Sys2Proof.Safety

/-- The unit with another record of its run, the model's own fields (log 3, log 4). -/
def withRecord (responses : List Response) (hostErr : Bool) (s : State) : State :=
  { s with responses, hostErr }

/-- The two outcomes, of the units `s` and `s'`, leave the same `BUF` and `FLT` and give the same one
response. -/
def EndsAlike (s s' : State) (o o' : StepOutcome) : Prop :=
  ∃ u u' r, o = .next u ∧ o' = .next u' ∧ u'.buf = u.buf ∧ u'.flt = u.flt ∧
    u.responses = s.responses ++ [r] ∧ u'.responses = s'.responses ++ [r]

section
variable {rs : List Response} {b : Bool} {s : State}

@[simp] theorem withRecord_cfg : (withRecord rs b s).cfg = s.cfg := rfl
@[simp] theorem withRecord_buf : (withRecord rs b s).buf = s.buf := rfl
@[simp] theorem withRecord_flt : (withRecord rs b s).flt = s.flt := rfl

theorem answered_eq_withRecord (x : Status) (d : Value) (s : State) :
    answered x d s = withRecord (answered x d s).responses (answered x d s).hostErr s := rfl

/-- A response ends two units alike when the command gave both the same `BUF` and `FLT` before it. -/
theorem endsAlike_emit {t t' : State} (x : Status) (d : Value) (hbuf : t'.buf = t.buf := by rfl)
    (hflt : t'.flt = t.flt := by rfl) (ht : t.responses = s.responses := by rfl)
    (ht' : t'.responses = rs := by rfl) :
    EndsAlike s (withRecord rs b s) (.next (emit x d t)) (.next (emit x d t')) :=
  ⟨_, _, _, rfl, rfl, hbuf, hflt, by rw [emit_responses, ht], by rw [emit_responses, ht']; rfl⟩

theorem endsAlike_unlessFaulted {body body' : StepOutcome}
    (h : EndsAlike s (withRecord rs b s) body body') :
    EndsAlike s (withRecord rs b s) (unlessFaulted s body)
      (unlessFaulted (withRecord rs b s) body') := by
  cases hflt : s.flt with
  | none => rwa [unlessFaulted_none hflt, unlessFaulted_none (withRecord_flt.trans hflt)]
  | some e =>
    rw [unlessFaulted_some hflt, unlessFaulted_some (withRecord_flt.trans hflt)]
    exact endsAlike_emit ..

theorem execRdbits_endsAlike (start stop : Nat) :
    EndsAlike s (withRecord rs b s) (execRdbits start stop s)
      (execRdbits start stop (withRecord rs b s)) :=
  endsAlike_unlessFaulted <| by
    rw [withRecord_cfg, withRecord_buf]
    cases checkRange s.cfg.nbits start stop <;> exact endsAlike_emit ..

theorem execWrbits_endsAlike (start stop : Nat) (value : Value) :
    EndsAlike s (withRecord rs b s) (execWrbits start stop value s)
      (execWrbits start stop value (withRecord rs b s)) :=
  endsAlike_unlessFaulted <| by
    rw [withRecord_cfg, withRecord_buf]
    cases checkRange s.cfg.nbits start stop <;> exact endsAlike_emit ..

theorem execGet_endsAlike (f : Nat) :
    EndsAlike s (withRecord rs b s) (execGet f s) (execGet f (withRecord rs b s)) :=
  endsAlike_unlessFaulted <| by
    rw [withRecord_cfg, withRecord_buf]
    cases fieldAt s.cfg f with
    | none => exact endsAlike_emit ..
    | some fld =>
      simp only
      cases checkRange s.cfg.nbits fld.off (fieldStop fld) with
      | some e => exact endsAlike_emit ..
      | none =>
        simp only
        cases fromContainer fld.kind (readBits s.buf fld.off (fieldStop fld)) with
        | ok t => exact endsAlike_emit ..
        | error e => cases e <;> exact endsAlike_emit ..

theorem execSet_endsAlike (f : Nat) (v : Value) :
    EndsAlike s (withRecord rs b s) (execSet f v s) (execSet f v (withRecord rs b s)) :=
  endsAlike_unlessFaulted <| by
    rw [withRecord_cfg, withRecord_buf]
    cases fieldAt s.cfg f with
    | none => exact endsAlike_emit ..
    | some fld =>
      simp only
      cases toContainer fld.kind fld.cwid v.toNat with
      | none => exact endsAlike_emit ..
      | some c =>
        simp only
        cases checkRange s.cfg.nbits fld.off (fieldStop fld) <;> exact endsAlike_emit ..

theorem execNew_endsAlike :
    EndsAlike s (withRecord rs b s) (execNew s) (execNew (withRecord rs b s)) :=
  endsAlike_unlessFaulted (endsAlike_emit ..)

/-- No command reads what is on record. -/
theorem exec_endsAlike (i : Instr) :
    EndsAlike s (withRecord rs b s) (exec i s) (exec i (withRecord rs b s)) := by
  cases i with
  | rdbits start stop => exact execRdbits_endsAlike start stop
  | wrbits start stop value => exact execWrbits_endsAlike start stop value
  | get f => exact execGet_endsAlike f
  | set f t => exact execSet_endsAlike f t
  | new => exact execNew_endsAlike

end

/-- Settles O40: GET takes the branch of the foreign discriminant, which changes the record alone, and
no command reads that. -/
theorem invalidDiscriminantIsRecoverable : Obligations.InvalidDiscriminantIsRecoverable := by
  intro s f fld disc hflt hfld hkind hr hraw
  have hconv : fromContainer fld.kind (readBits s.buf fld.off (fieldStop fld)) =
      .error .invalidDiscriminant := by
    rw [fieldStop, readBits_eq_weightedSum _ (checkRange_none.1 hr).1.le, hkind]
    exact if_neg hraw
  refine ⟨exec_get_of_invalidDiscriminant hflt hfld hr hconv, fun i => ?_⟩
  rw [answered_eq_withRecord]
  exact exec_endsAlike i

end Sys2Proof.Proofs
end

section
/-! SUPPORT. Reset at a clock edge, and NEW beside it (70_reset_and_hazards.md R230, R231). -/

namespace Sys2Proof.Proofs

open Sys2Proof.Machine Sys2Proof.Laws Sys2Proof.Safety

/-- Reset lists no byte, and a byte not listed is 0 (log 5). -/
theorem byte_unitReset (s : State) (a : Nat) : Memory.byte (unitReset s).buf a = 0#8 := by
  rw [unitReset_buf, byte_nil]

/-- In a unit that exists reset wins at the edge, whatever the other pins show and whatever is in
flight (R230). -/
theorem clockEdge_of_rst {s : State} {p : PinsIn} (done : Bool) (hc : configWf s.cfg = true)
    (hr : p.rst = true) : clockEdge s p done = .next { state := unitReset s, rsp := none } := by
  rw [clockEdge, ifUnitExists, if_pos hc, edgeBody, if_pos hr]

/-- Settles O10: the edge gives the state of `unitReset` and no response word; with nothing in flight
`cmd_ready` is 1. -/
theorem resetClearsTheUnit : Obligations.ResetClearsTheUnit := by
  intro s p done hc hr
  have hready : cmdReady (unitReset s) = true := by
    rw [cmdReady, unitReset_inFlight, Option.isNone_none]
  exact ⟨_, clockEdge_of_rst done hc hr, byte_unitReset s, unitReset_flt s, unitReset_inFlight s,
    hready, rfl, unitReset_responses s, unitReset_cfg s⟩

/-- NEW in a running unit zero-fills the `NB` bytes, and the invariant leaves no other byte (R20,
R135). -/
theorem exec_new_of_inv {s : State} (hinv : Inv s) (hflt : s.flt = none) :
    exec .new s = .next (emit .ok 0#128 (setBuf (unitReset s).buf s)) := by
  obtain ⟨-, hwf, hinside⟩ := hinv
  rw [exec_new_of_running hflt, zeroFill_inside hwf hinside, unitReset_buf]

/-- The refusal of a faulted unit changes nothing and answers the code latched (R196). -/
theorem refuseFaulted_eq_answered (e : FatalError) (s : State) :
    refuseFaulted e s = .next (answered .faulted ((fatalCode e).setWidth 128) s) := by
  rw [refuseFaulted, emit_eq_answered, fltByte]

/-- Settles O11: NEW sets the buffer that reset leaves and keeps the latch, and a faulted unit refuses
every command, NEW among them. -/
theorem newAndResetAgree : Obligations.NewAndResetAgree := by
  refine ⟨fun s => ⟨unitReset_flt s, byte_unitReset s⟩, fun s hinv hflt => ?_, fun s e hflt => ?_⟩
  · exact ⟨_, exec_new_of_inv hinv hflt, rfl, hflt⟩
  · rw [exec_of_faulted .new hflt, refuseFaulted_eq_answered]

end Sys2Proof.Proofs
end

section
/-! SUPPORT. Encoding and the step (30_encoding.md R70 to R74; 00_scope.md R4, R9): the decoder inverts the
encoder, a step runs the command its word decodes to, answers every unit that exists, and keeps the
invariant and the configuration. -/

namespace Sys2Proof.Proofs

open Sys2Proof.Machine Sys2Proof.Laws Sys2Proof.Safety

/-! ### Encoding -/

/-- Settles O1: per constructor, each field of the encoding is the operand put there. -/
theorem decodeInvertsEncode : Obligations.DecodeInvertsEncode := by
  intro pw i hwf
  have h0 : 0 < 2 ^ pw := Nat.two_pow_pos pw
  cases i with
  | rdbits start stop =>
    simp only [Instr.wellFormed, Bool.and_eq_true, fitsPosition_iff] at hwf
    obtain ⟨hstart, hstop⟩ := hwf
    rw [encode, decode_op_one (commandOp_commandWord (by decide) hstart hstop 0),
      commandA_commandWord hstart hstop, commandB_commandWord hstop]
  | wrbits start stop value =>
    simp only [Instr.wellFormed, Bool.and_eq_true, fitsPosition_iff] at hwf
    obtain ⟨hstart, hstop⟩ := hwf
    rw [encode, decode_op_two (commandOp_commandWord (by decide) hstart hstop value),
      commandA_commandWord hstart hstop, commandB_commandWord hstop, commandV_commandWord]
  | get f =>
    simp only [Instr.wellFormed, fitsPosition_iff] at hwf
    rw [encode, decode_op_three (commandOp_commandWord (by decide) hwf h0 0),
      commandA_commandWord hwf h0]
  | set f t =>
    simp only [Instr.wellFormed, fitsPosition_iff] at hwf
    rw [encode, decode_op_four (commandOp_commandWord (by decide) hwf h0 t),
      commandA_commandWord hwf h0, commandV_commandWord]
  | new => rw [encode, decode_op_five (commandOp_commandWord (by decide) h0 h0 0)]

/-- Settles O2: each word is concrete, and the decoder computes. -/
theorem wordsOfTheSpecDecode : Obligations.WordsOfTheSpecDecode := by
  unfold Obligations.WordsOfTheSpecDecode
  decide

/-- Settles O4: the decoder refuses the opcode, and a faulted unit refuses every word before it is
decoded. -/
theorem illegalOpcodesAreRefused : Obligations.IllegalOpcodesAreRefused := by
  refine fun s w hop => ⟨fun hflt => ?_, fun e hflt => ?_⟩
  · rw [runCommand_of_illegal hflt hop, emit_eq_answered]
    rfl
  · rw [runCommand_of_faulted w hflt, refuseFaulted_eq_answered, hflt, fltByte]

/-! ### What a step takes -/

theorem step_of_wf {s : State} (hwf : configWf s.cfg = true) : step s = advance s := if_pos hwf

theorem step_of_not_wf {s : State} (hwf : configWf s.cfg = false) : step s = .fault .noUnit :=
  if_neg (by simp [hwf])

theorem advance_of_reset {s : State} {rest : List HostInput} (hh : s.host = .reset :: rest) :
    advance s = .next (unitReset { s with host := rest }) := by
  simp [advance, hh]

theorem advance_of_command {s : State} {w : Nat} {rest : List HostInput} (hf : s.inFlight = none)
    (hh : s.host = .command w :: rest) : advance s = runCommand w { s with host := rest } := by
  simp [advance, hh, hf]

/-- A command in flight is answered before the host's next input is taken, unless that is a reset. -/
theorem advance_of_inFlight {s : State} {w : Nat} (hf : s.inFlight = some w)
    (hh : s.host.head? ≠ some .reset) : advance s = runCommand w { s with inFlight := none } := by
  obtain ⟨rest, hr, -⟩ | ⟨v, -, hv, he⟩ | ⟨v, rest, -, hv, -⟩ | ⟨-, hv, -⟩ := advance_cases s
  · simp [hr] at hh
  · rw [he, Option.some.inj (hv.symm.trans hf)]
  all_goals simp [hf] at hv

/-- Settles O5: `advance` runs the word, and the word runs the command it decodes to. -/
theorem stepRunsTheDecodedCommand : Obligations.StepRunsTheDecodedCommand := by
  refine ⟨fun s w rest i hwf hf hh hdec => ?_, fun s w i hwf hf hh hdec => ?_⟩
  · rw [step_of_wf hwf, advance_of_command hf hh]
    exact runCommand_of_decode_ok hdec
  · rw [step_of_wf hwf, advance_of_inFlight hf hh]
    exact runCommand_of_decode_ok hdec

/-! ### Every step answers -/

theorem exists_runCommand_next (w : Nat) (s : State) : ∃ t, runCommand w s = .next t :=
  (runCommand_effect w s).imp fun _ h => h.1

theorem exists_advance_next (s : State) : ∃ t, advance s = .next t := by
  obtain ⟨rest, -, he⟩ | ⟨v, -, -, he⟩ | ⟨w, rest, -, -, he⟩ | ⟨-, -, he⟩ := advance_cases s <;>
    rw [he]
  · exact ⟨_, rfl⟩
  · exact exists_runCommand_next v _
  · exact exists_runCommand_next w _
  · exact ⟨_, rfl⟩

/-- Settles O6: every command answers a next state with one response, so every branch of a step does. -/
theorem stepIsTotal : Obligations.StepIsTotal := by
  refine ⟨fun s hwf => ?_, fun s rest hwf hh => ?_, fun s => step_of_not_wf, fun s w => ?_⟩
  · rw [step_of_wf hwf]
    exact exists_advance_next s
  · rw [step_of_wf hwf, advance_of_reset hh]
  · obtain ⟨t, ht, heff⟩ := runCommand_effect w s
    obtain ⟨-, -, -, r, hr, -⟩ := heff.frame
    exact ⟨t, r, ht, hr⟩

/-! ### The faulted unit -/

theorem runCommands_of_faulted {s : State} {e : FatalError} (ws : List Nat) (h : s.flt = some e) :
    runCommands s ws =
      .next { s with
        responses := s.responses ++
          List.replicate ws.length { status := .faulted, data := (fatalCode e).setWidth 128 } } := by
  induction ws generalizing s with
  | nil => simp [runCommands]
  | cons w ws ih =>
    have hrest := ih (s := answered .faulted ((fatalCode e).setWidth 128) s) h
    rw [runCommands, runCommand_of_faulted w h, refuseFaulted_eq_answered]
    simp only [hrest]
    simp [answered, List.replicate_succ]

/-- Settles O7, by induction on the words: the answer to the first leaves the unit faulted. -/
theorem faultedUnitRefusesEverything : Obligations.FaultedUnitRefusesEverything :=
  ⟨fun _ _ ws h => runCommands_of_faulted ws h, fun s => ⟨unitReset_flt s, byte_unitReset s⟩⟩

/-! ### What every step keeps -/

/-- The invariant speaks of the configuration and the buffer only. -/
theorem inv_of_effect {s t : State} (hinv : Inv s) (h : CommandEffect s t) : Inv t := by
  obtain ⟨hwf, hbuf, hin⟩ := hinv
  obtain ⟨hcfg, -⟩ := h.frame
  rw [Safety.Inv, bufferInv, hcfg]
  exact ⟨hwf, h.buffer hbuf hin⟩

/-- Settles O55: a reset lists no byte, a command word has one of the four effects, and an idle step
changes nothing. -/
theorem stepKeepsInvariant : Obligations.StepKeepsInvariant := by
  intro s t hinv h
  obtain ⟨rest, -, rfl⟩ | ⟨w, i, l, -, hrun⟩ | ⟨-, -, rfl⟩ := step_cases h
  · exact ⟨hinv.1, rfl, rfl⟩
  · exact inv_of_effect (s := { s with inFlight := i, host := l }) hinv (effect_of_runCommand hrun)
  · exact hinv

/-- Settles O56: the reset buffer lists no byte, and the configuration of the reset state is checked. -/
theorem resetMeetsInvariant : Obligations.ResetMeetsInvariant :=
  ⟨⟨by decide, rfl, rfl⟩, fun _ hwf => ⟨hwf, rfl, rfl⟩⟩

theorem cfg_of_runCommand {w : Nat} {s t : State} (h : runCommand w s = .next t) : t.cfg = s.cfg :=
  (effect_of_runCommand h).frame.1

theorem cfg_of_step {s t : State} (h : step s = .next t) : t.cfg = s.cfg := by
  obtain ⟨rest, -, rfl⟩ | ⟨w, i, l, -, hrun⟩ | ⟨-, -, rfl⟩ := step_cases h
  · rfl
  · exact (cfg_of_runCommand hrun :)
  · rfl

end Sys2Proof.Proofs
end

section
/-! SUPPORT. The response word and the handshake at clock edges (30_encoding.md R76, R79;
70_reset_and_hazards.md R230, R236): what one edge does, by what is in flight and what the pins show, and a
run of edges from acceptance to response. -/

namespace Sys2Proof.Proofs

open Sys2Proof.Machine Sys2Proof.Laws Sys2Proof.Safety

/-! ### One edge -/

theorem clockEdge_eq_next {s : State} {p : PinsIn} {done : Bool} {r : EdgeResult}
    (h : clockEdge s p done = .next r) : configWf s.cfg = true ∧ edgeBody s p done = .next r := by
  unfold clockEdge ifUnitExists at h
  split at h
  case isTrue hwf => exact ⟨hwf, h⟩
  case isFalse => cases h

section
variable {s : State} {p : PinsIn} (hwf : configWf s.cfg = true) (hrst : p.rst = false)
include hwf hrst

/-- With nothing in flight a valid command is accepted. -/
theorem clockEdge_accept (done : Bool) (hf : s.inFlight = none) (hv : p.cmdValid = true) :
    clockEdge s p done =
      .next { state := { s with inFlight := some (busWord s.cfg p.cmd) }, rsp := none } := by
  simp [clockEdge, ifUnitExists, hwf, edgeBody, hrst, hf, hv]

theorem clockEdge_idle (done : Bool) (hf : s.inFlight = none) (hv : p.cmdValid = false) :
    clockEdge s p done = .next { state := s, rsp := none } := by
  simp [clockEdge, ifUnitExists, hwf, edgeBody, hrst, hf, hv]

variable {w : Nat} (hf : s.inFlight = some w)
include hf

/-- A command in flight that is not answered keeps the unit as it is. -/
theorem clockEdge_wait : clockEdge s p false = .next { state := s, rsp := none } := by
  simp [clockEdge, ifUnitExists, hwf, edgeBody, hrst, hf]

theorem clockEdge_done : clockEdge s p true = answer s w := by
  simp [clockEdge, ifUnitExists, hwf, edgeBody, hrst, hf]

end

/-- The edge of a response gives the state the word leaves and the word of the response it adds. -/
theorem answer_eq {s t : State} {w : Nat} {r : Response}
    (hrun : runCommand w { s with inFlight := none } = .next t)
    (hr : t.responses = s.responses ++ [r]) :
    answer s w = .next { state := t, rsp := some (responseWord r) } := by
  simp [answer, hrun, hr]

/-- Every word in flight can be answered. -/
theorem exists_answer (s : State) (w : Nat) :
    ∃ t r, runCommand w { s with inFlight := none } = .next t ∧
      t.responses = s.responses ++ [r] ∧ t.inFlight = none ∧ t.cfg = s.cfg := by
  obtain ⟨t, ht, heff⟩ := runCommand_effect w { s with inFlight := none }
  obtain ⟨hcfg, hf, -, r, hr, -⟩ := heff.frame
  exact ⟨t, r, ht, hr, hf, hcfg⟩

theorem cmdReady_iff {s : State} : cmdReady s = true ↔ s.inFlight = none := Option.isNone_iff_eq_none

/-- Settles O58: one case of the edge per clause. -/
theorem oneCommandInFlight : Obligations.OneCommandInFlight := by
  refine fun s p hwf => ⟨cmdReady_iff, fun done hrst hf hv => clockEdge_accept hwf hrst done hf hv,
    fun done hrst hf hv => clockEdge_idle hwf hrst done hf hv,
    fun w hrst hf => clockEdge_wait hwf hrst hf, fun w hrst hf => ?_, fun done hrst => ?_⟩
  · obtain ⟨t, r, hrun, hr, hready, -⟩ := exists_answer s w
    exact ⟨_, _, (clockEdge_done hwf hrst hf).trans (answer_eq hrun hr), rfl, cmdReady_iff.2 hready⟩
  · exact ⟨_, clockEdge_of_rst done hwf hrst, rfl, rfl, rfl, rfl⟩

theorem cfg_of_clockEdge {s : State} {p : PinsIn} {done : Bool} {r : EdgeResult}
    (h : clockEdge s p done = .next r) : r.state.cfg = s.cfg := by
  obtain ⟨hwf, -⟩ := clockEdge_eq_next h
  cases hrst : p.rst with
  | true =>
    cases (clockEdge_of_rst done hwf hrst).symm.trans h
    rfl
  | false =>
    cases hf : s.inFlight with
    | none =>
      cases hv : p.cmdValid with
      | true => cases (clockEdge_accept hwf hrst done hf hv).symm.trans h; rfl
      | false => cases (clockEdge_idle hwf hrst done hf hv).symm.trans h; rfl
    | some w =>
      cases done with
      | true =>
        obtain ⟨t, r, hrun, hr, -, hcfg⟩ := exists_answer s w
        cases ((clockEdge_done hwf hrst hf).trans (answer_eq hrun hr)).symm.trans h
        exact hcfg
      | false => cases (clockEdge_wait hwf hrst hf).symm.trans h; rfl

/-- Settles O57: whatever a step or an edge does, a reset and every command leave the configuration. -/
theorem configurationIsConstant : Obligations.ConfigurationIsConstant :=
  ⟨fun _ _ => cfg_of_step, fun _ _ _ _ => cfg_of_clockEdge⟩

/-! ### From acceptance to response -/

theorem runEdges_cons {s : State} {p : PinsIn} {done : Bool} {rest : List (PinsIn × Bool)}
    {r : EdgeResult} {t : EdgeRun} (hedge : clockEdge s p done = .next r)
    (hrest : runEdges r.state rest = .next t) :
    runEdges s ((p, done) :: rest) = .next { t with responses := r.rsp.toList ++ t.responses } := by
  simp [runEdges, hedge, hrest]

/-- While a command is in flight the edges before its response leave no trace. -/
theorem runEdges_waits {s : State} {w : Nat} {waits : List PinsIn} {rest : List (PinsIn × Bool)}
    (hwf : configWf s.cfg = true) (hf : s.inFlight = some w) (hrst : ∀ p ∈ waits, p.rst = false)
    {t : EdgeRun} (hrest : runEdges s rest = .next t) :
    runEdges s (waits.map (fun p => (p, false)) ++ rest) = .next t := by
  induction waits with
  | nil => exact hrest
  | cons p waits ih =>
    obtain ⟨hp, hwaits⟩ := List.forall_mem_cons.1 hrst
    exact runEdges_cons (clockEdge_wait hwf hp hf) (ih hwaits)

theorem runEdges_answer {s t : State} {w : Nat} {last : PinsIn} {r : Response}
    (hwf : configWf s.cfg = true) (hf : s.inFlight = some w) (hrst : last.rst = false)
    (hrun : runCommand w { s with inFlight := none } = .next t)
    (hr : t.responses = s.responses ++ [r]) :
    runEdges s [(last, true)] = .next { state := t, responses := [responseWord r] } :=
  runEdges_cons ((clockEdge_done hwf hrst hf).trans (answer_eq hrun hr))
    (t := { state := t, responses := [] }) rfl

/-- Settles O59: acceptance puts the word in flight, waiting keeps it there, and its answer runs it on the
state the single step runs it on. -/
theorem latencyDoesNotMatter : Obligations.LatencyDoesNotMatter := by
  intro s t w waits last hwf hf hw hwaits hlast hstep
  have hidle : { s with inFlight := none } = s := by rw [← hf]
  have hrun : runCommand w s = .next t := by
    rwa [step_of_wf (by exact hwf), advance_of_command (by exact hf) rfl] at hstep
  obtain ⟨-, -, -, r, hr, -⟩ := (effect_of_runCommand hrun).frame
  refine ⟨r, hr, fun accept hrst hv hcmd d => ?_⟩
  have hbus : busWord s.cfg accept.cmd = w := by
    rw [hcmd]
    exact Nat.mod_eq_of_lt hw
  have haccept := clockEdge_accept hwf hrst d hf hv
  rw [hbus] at haccept
  have hanswer : runEdges { s with inFlight := some w } [(last, true)] =
      .next { state := t, responses := [responseWord r] } :=
    runEdges_answer hwf rfl hlast (hidle.symm ▸ hrun) hr
  have hwaiting := runEdges_waits (s := { s with inFlight := some w }) hwf rfl hwaits hanswer
  exact runEdges_cons haccept hwaiting

end Sys2Proof.Proofs
end

section
/-! SUPPORT. What the commands answer when they complete (40_codec.md R103, R104, R110; 41_accessors.md
R131 to R135): the raw codec, the wire format and the covered bits, the conversion of field bits, and GET,
SET and NEW in a unit that exists. -/

namespace Sys2Proof.Proofs

open Sys2Proof.Machine Sys2Proof.Laws Sys2Proof.Safety

/-! ### The raw codec -/

/-- The state after a command that wrote the buffer `m` and responded `(OK, 0)`, in the words of the
statements. -/
theorem emit_ok_setBuf (m : Memory) (s : State) :
    emit .ok 0#128 (setBuf m s) =
      { s with buf := m, responses := s.responses ++ [{ status := .ok, data := 0 }] } := by
  simp [emit, setBuf, isHostError]

theorem emit_ok (d : Value) (s : State) :
    emit .ok d s = { s with responses := s.responses ++ [{ status := .ok, data := d }] } := by
  simp [emit, isHostError]

section
variable {s : State} {start stop : Nat} (hflt : s.flt = none)
  (hr : checkRange s.cfg.nbits start stop = none)
include hflt hr

theorem exec_rdbits_of_ok :
    exec (.rdbits start stop) s =
      .next (emit .ok (BitVec.ofNat 128 (readBits s.buf start stop)) s) := by
  simp [exec, execRdbits, unlessFaulted_none hflt, hr, respond]

theorem exec_wrbits_of_ok (value : Value) :
    exec (.wrbits start stop value) s =
      .next (emit .ok 0#128 (setBuf (writeBits s.buf start stop value.toNat) s)) := by
  simp [exec, execWrbits, unlessFaulted_none hflt, hr, respond]

end

/-- Settles O14: the range check passes, and what is read is the weighted sum. -/
theorem rdbitsRespondsTheValue : Obligations.RdbitsRespondsTheValue := by
  intro s start stop hflt h1 h2 h3
  rw [exec_rdbits_of_ok hflt (checkRange_none.2 ⟨h1, h2, h3⟩), emit_ok,
    ← readBits_eq_weightedSum s.buf h1.le]
  exact ⟨rfl, readBits_lt s.buf start stop⟩

/-- Settles O15: the range check passes, and what is written is the codec's write. -/
theorem wrbitsWritesTheRange : Obligations.WrbitsWritesTheRange := by
  intro s start stop value hw hflt h1 h2 h3
  refine ⟨_, ?_, wf_writeBits start stop value.toNat hw, fun p => ?_⟩
  · rw [exec_wrbits_of_ok hflt (checkRange_none.2 ⟨h1, h2, h3⟩), emit_ok_setBuf]
  · rw [bit_writeBits _ p hw h1.le, BitVec.testBit_toNat]

/-- Settles O21: each byte is the read of its eight positions. -/
theorem wireFormatIsTheByteReads : Obligations.WireFormatIsTheByteReads := by
  refine fun s => ⟨by simp [Memory.wire], fun i hi => ?_⟩
  have hbyte : readBits s.buf (8 * i) (8 * i + 8) = (Memory.byte s.buf i).toNat :=
    readBits_byte s.buf i
  rw [hbyte, BitVec.ofNat_toNat, BitVec.setWidth_eq]
  simp [Memory.wire, hi]

/-! ### The covered bits of a byte -/

/-- A mask of `width` ones from bit `shift` up. -/
theorem testBit_fieldMask (width shift j : Nat) :
    ((2 ^ width - 1) <<< shift).testBit j = decide (shift ≤ j ∧ j < shift + width) := by
  rw [Nat.testBit_shiftLeft, Nat.testBit_two_pow_sub_one]
  by_cases hj : shift ≤ j
  · simp [hj, show j - shift < width ↔ j < shift + width by omega]
  · simp [hj]

section
variable {start stop : Nat} (h : start < stop)
include h

/-- Bit `j` of a byte of the window is position `8 * b + (7 - j)` (00_scope.md R6). -/
theorem testBit_coverMask {b : Nat} (hfirst : firstByte start ≤ b) (hlast : b ≤ lastByte stop)
    (j : Nat) :
    (coverMask start stop b).testBit j =
      decide (j < 8 ∧ start ≤ 8 * b + (7 - j) ∧ 8 * b + (7 - j) < stop) := by
  obtain ⟨hbefore, hafter⟩ := window_byte_overlaps h hfirst hlast
  rw [coverMask, testBit_fieldMask, coverShift_eq_chunkEdge h hfirst hlast,
    coverBits_eq_chunkEdge h hfirst hlast, decide_eq_decide]
  unfold chunkEdge
  omega

theorem coverBits_bounds {b : Nat} (hfirst : firstByte start ≤ b) (hlast : b ≤ lastByte stop) :
    1 ≤ coverBits start stop b ∧ coverBits start stop b ≤ 8 := by
  obtain ⟨hbefore, hafter⟩ := window_byte_overlaps h hfirst hlast
  rw [coverBits_eq_chunkEdge h hfirst hlast]
  unfold chunkEdge
  omega

/-- The covered bits of the first `j` bytes of the window reach up to where the next byte's begin. -/
theorem sum_coverBits {j : Nat} (hj : j ≤ windowBytes start stop) :
    ∑ i ∈ Finset.range j, coverBits start stop (firstByte start + i) =
      chunkEdge start stop (firstByte start + j) - start := by
  induction j with
  | zero => simp [chunkEdge_firstByte h]
  | succ j ih =>
    have hcount := firstByte_add_windowBytes h
    have hfirst : firstByte start ≤ firstByte start + j := Nat.le_add_right ..
    have hlast : firstByte start + j ≤ lastByte stop := by omega
    have hmono := (chunkEdge_within_byte h hfirst hlast).2.1
    have hstart := start_le_chunkEdge h (firstByte start + j)
    rw [Finset.sum_range_succ, ih (by omega), coverBits_eq_chunkEdge h hfirst hlast, ← Nat.add_assoc]
    omega

end

/-- An interior byte is covered whole. -/
theorem cover_interior {start stop b : Nat} (h1 : firstByte start < b) (h2 : b < lastByte stop) :
    coverLo start b = 0 ∧ coverHi stop b = 8 ∧ coverBits start stop b = 8 ∧
      coverShift stop b = 0 ∧ coverMask start stop b = 0xFF := by
  have hlo : coverLo start b = 0 := if_neg (by omega)
  have hhi : coverHi stop b = 8 := if_neg (by omega)
  simp [coverBits, coverShift, coverMask, hlo, hhi]

/-- Settles O23: byte by byte the window covers the range in order, from its start to its stop. -/
theorem coveredBitsSumToTheWidth : Obligations.CoveredBitsSumToTheWidth := by
  intro nbits start stop hr
  have h := (checkRange_none.1 hr).1
  refine ⟨fun b hfirst hlast => ?_, fun b => cover_interior, ?_⟩
  · obtain ⟨hpos, hle⟩ := coverBits_bounds h hfirst hlast
    exact ⟨hpos, hle, testBit_coverMask h hfirst hlast⟩
  · rw [sum_coverBits h le_rfl, firstByte_add_windowBytes h, chunkEdge_after_lastByte h]

/-! ### The conversion of field bits -/

theorem fromContainer_bool_of_lt {raw : Nat} (h : raw < 2) : fromContainer .bool raw = .ok raw := by
  interval_cases raw <;> rfl

theorem fromContainer_bool_of_ge {raw : Nat} (h : raw ≥ 2) :
    fromContainer .bool raw = .error .malformedRepr :=
  (if_neg (by omega)).trans (if_neg (by omega))

/-- Settles O36: one equation per branch of the conversion. -/
theorem conversionRejectsForeignBits : Obligations.ConversionRejectsForeignBits :=
  ⟨fun _ _ => rfl, rfl, rfl, fun _ => fromContainer_bool_of_ge, fun _ _ h => if_neg h,
    fun _ _ _ => fromContainer_enum⟩

/-- The conditions on an enum (R155 to R159, R167), with the bound of log 15. -/
theorem kindAdmitted_enum_iff {disc : List Nat} {bits : Nat} :
    kindAdmitted (.enum disc) bits = true ↔
      bits ≤ 63 ∧ disc.length = 2 ^ bits ∧ (∀ d ∈ disc, d < 2 ^ bits) ∧ disc.Nodup := by
  have h : kindAdmitted (.enum disc) bits = true ↔
      bits ≤ enumBits ∧ disc.length = 2 ^ bits ∧ (∀ d ∈ disc, d < 2 ^ bits) ∧ disc.Nodup := by
    simp only [kindAdmitted, Bool.and_eq_true, List.all_eq_true, decide_eq_true_eq,
      allDistinct_iff_nodup, and_assoc]
  exact h

/-- Every value of an enum's bits is the discriminant of a variant (42_configuration.md R159). -/
theorem exists_variant {disc : List Nat} {bits raw : Nat} (h : kindAdmitted (.enum disc) bits = true)
    (hraw : raw < 2 ^ bits) : ∃ i : Nat, disc[i]? = some raw := by
  obtain ⟨-, hcount, hlt, hnd⟩ := kindAdmitted_enum_iff.1 h
  rw [← hcount] at hraw hlt
  exact (existsUnique_index_of_nodup hnd hlt hraw).exists

/-- Bits of an admitted kind's width always stand for a Target value: the two error branches of the
conversion are dead (R131). -/
theorem exists_fromContainer {kind : Kind} {bits raw : Nat} (h : kindAdmitted kind bits = true)
    (hraw : raw < 2 ^ bits) :
    ∃ t, fromContainer kind raw = .ok t ∧ standsFor kind raw t ∧ t < 2 ^ 64 := by
  have hwidth : 2 ^ bits ≤ 2 ^ 64 := Nat.pow_le_pow_right two_pos (bits_le_of_kindAdmitted h)
  cases kind with
  | prim n => exact ⟨raw, rfl, rfl, hraw.trans_le hwidth⟩
  | bool =>
    obtain rfl : bits = 1 := of_decide_eq_true h
    exact ⟨raw, fromContainer_bool_of_lt hraw, rfl, hraw.trans_le hwidth⟩
  | enum disc =>
    obtain ⟨-, hcount, -, hnd⟩ := kindAdmitted_enum_iff.1 h
    obtain ⟨i, hi⟩ := exists_variant h hraw
    have hlt : i < 2 ^ bits := hcount ▸ (List.getElem?_eq_some_iff.1 hi).1
    exact ⟨i, fromContainer_enum hnd hi, hi, hlt.trans_le hwidth⟩

theorem containerOf_of_toContainer {kind : Kind} {cwid : NativeWidth} {t c : Nat}
    (h : toContainer kind cwid t = some c) : containerOf kind t c := by
  cases kind with
  | prim n => exact (Option.some.inj (Option.ite_none_right_eq_some.1 h).2).symm
  | bool => exact (Option.some.inj (Option.ite_none_right_eq_some.1 h).2).symm
  | enum disc => exact h

/-! ### GET, SET and NEW -/

/-- GET of a field of non-zero width completes with the Target value of its bits. -/
theorem exec_get_completes {s : State} {f : Nat} {fld : Field} (hwf : configWf s.cfg = true)
    (hflt : s.flt = none) (hfld : s.cfg.fields[f]? = some fld) (hbits : 1 ≤ fld.bits) :
    ∃ t, t < 2 ^ 64 ∧ standsFor fld.kind (readBits s.buf fld.off (fieldStop fld)) t ∧
      exec (.get f) s = .next (emit .ok (BitVec.ofNat 128 t) s) := by
  have hkind := kindAdmitted_of_fieldAdmitted (fieldAdmitted_of_wf hwf hfld)
  have hraw := readBits_lt s.buf fld.off (fieldStop fld)
  rw [show fieldStop fld - fld.off = fld.bits from Nat.add_sub_cancel_left ..] at hraw
  obtain ⟨t, hconv, hstands, ht⟩ := exists_fromContainer hkind hraw
  exact ⟨t, ht, hstands, exec_get_of_ok hflt hfld (checkRange_field hwf hfld hbits) hconv⟩

/-- Settles O27: the field's range is legal and its bits stand for a Target value. -/
theorem getRespondsTheTarget : Obligations.GetRespondsTheTarget := by
  intro s f fld hwf hflt hfld hbits
  obtain ⟨t, ht, hstands, hexec⟩ := exec_get_completes hwf hflt hfld hbits
  rw [readBits_eq_weightedSum _ (by simp [fieldStop])] at hstands
  exact ⟨t, ht, hstands, hexec.trans (by rw [emit_ok])⟩

/-- Settles O28: a valid Target value has a container value, and the field's range is legal. -/
theorem setWritesTheField : Obligations.SetWritesTheField := by
  intro s f fld t hwf hw hflt hfld hbits hv
  obtain ⟨c, hc⟩ := exists_toContainer hv
  have hr := checkRange_field hwf hfld hbits
  refine ⟨c, _, containerOf_of_toContainer hc, ?_, wf_writeBits fld.off (fieldStop fld) c hw,
    fun p => bit_writeBits c p hw (checkRange_none.1 hr).1.le⟩
  rw [exec_set_of_ok hflt hfld hc hr, emit_ok_setBuf]

/-- Settles O29: NEW writes the zero-filled buffer. -/
theorem newZeroFillsTheBuffer : Obligations.NewZeroFillsTheBuffer := by
  intro s hw hflt
  refine ⟨_, ?_, wf_zeroFill s.cfg.nb hw, fun i hi => ?_, fun i hi => ?_⟩
  · rw [exec_new_of_running hflt, emit_ok_setBuf]
  · rw [byte_zeroFill s.cfg.nb i hw, if_pos hi]
    rfl
  · rw [byte_zeroFill s.cfg.nb i hw, if_neg (by omega)]

theorem readBits_nil (start stop : Nat) : readBits [] start stop = 0 := by
  apply Nat.eq_of_testBit_eq
  intro k
  rw [testBit_readBits, Memory.bit, byte_nil]
  simp

/-- Settles O30: NEW leaves the reset buffer, every range of which reads 0. -/
theorem fieldsReadZeroAfterNew : Obligations.FieldsReadZeroAfterNew := by
  intro s f fld hinv hflt hfld hbits
  have hnew := exec_new_of_inv hinv hflt
  obtain ⟨v, -, hstands, hget⟩ :=
    exec_get_completes (s := emit .ok 0#128 (setBuf (unitReset s).buf s)) hinv.1 hflt hfld hbits
  rw [emit_buf, setBuf_buf, unitReset_buf, readBits_nil] at hstands
  exact ⟨_, _, v, hnew, hget, hstands, rfl⟩

/-- Settles O34: with no field, or no container value, the commands refuse before any range check. -/
theorem badOperandsAreRefused : Obligations.BadOperandsAreRefused := by
  intro s f t hflt
  have hanswer : emit .badOperand 0#128 s = answered .badOperand 0 s := emit_eq_answered ..
  refine ⟨fun hf => ⟨?_, ?_⟩, fun fld hfld hv => ?_⟩
  · rw [exec_get_of_noField hflt hf, hanswer]
  · rw [exec_set_of_noField hflt t hf, hanswer]
  · rw [exec_set_of_invalidTarget hflt hfld hv, hanswer]

end Sys2Proof.Proofs
end

section
/-! SUPPORT. How every command ends, said once in full, and what follows: the data of a response
(30_encoding.md R76), the model's mark (60_exceptions.md R195) and the frames of the commands (20_memory.md
R46, R47). -/

namespace Sys2Proof.Proofs

open Sys2Proof.Machine Sys2Proof.Laws Sys2Proof.Safety

/-! ### How a command ends -/

/-- The command names a field and not a range. -/
def namesField : Instr → Bool
  | .get _ => true
  | .set _ _ => true
  | .rdbits _ _ => false
  | .wrbits _ _ _ => false
  | .new => false

/-- The command ends in an error: the refusal of a faulted unit, a fatal error, or one of the two errors
that latch nothing, which only GET and SET have. -/
def EndsInError (i : Instr) (s t : State) : Prop :=
  (∃ e, s.flt = some e ∧ t = emit .faulted ((fatalCode e).setWidth 128) s) ∨
  (∃ e, s.flt = none ∧ t = raised e s) ∨
  (∃ x, s.flt = none ∧ namesField i = true ∧ (x = .badOperand ∨ x = .invalidDiscriminant) ∧
    t = emit x 0#128 s)

/-- The command completes: a reader responds a value, a writer `(OK, 0)` with the buffer it wrote. -/
def Completes (s t : State) : Instr → Prop
  | .rdbits start stop => t = emit .ok (BitVec.ofNat 128 (readBits s.buf start stop)) s
  | .wrbits start stop value => checkRange s.cfg.nbits start stop = none ∧
      t = emit .ok 0#128 (setBuf (writeBits s.buf start stop value.toNat) s)
  | .get _ => ∃ w, t = emit .ok (BitVec.ofNat 128 w) s
  | .set f v => ∃ fld c, s.cfg.fields[f]? = some fld ∧
      toContainer fld.kind fld.cwid v.toNat = some c ∧
      checkRange s.cfg.nbits fld.off (fieldStop fld) = none ∧
      t = emit .ok 0#128 (setBuf (writeBits s.buf fld.off (fieldStop fld) c) s)
  | .new => t = emit .ok 0#128 (setBuf (Memory.zeroFill s.cfg.nb s.buf) s)

/-- The outcome is a next state in which the command has ended, in an error or complete. -/
def Ends (i : Instr) (s : State) (o : StepOutcome) : Prop :=
  ∃ t, o = .next t ∧ (EndsInError i s t ∨ s.flt = none ∧ Completes s t i)

section
variable {i : Instr} {s : State} {o : StepOutcome} (hflt : s.flt = none)
include hflt

theorem ends_raised {e : FatalError} (ho : o = .next (raised e s)) : Ends i s o :=
  ⟨_, ho, .inl (.inr (.inl ⟨e, hflt, rfl⟩))⟩

theorem ends_badOperand (ho : o = .next (emit .badOperand 0#128 s)) (hi : namesField i = true) :
    Ends i s o :=
  ⟨_, ho, .inl (.inr (.inr ⟨_, hflt, hi, .inl rfl, rfl⟩))⟩

theorem ends_invalidDiscriminant (ho : o = .next (answered .invalidDiscriminant 0 s))
    (hi : namesField i = true) : Ends i s o :=
  ⟨_, ho, .inl (.inr (.inr ⟨_, hflt, hi, .inr rfl, (emit_eq_answered ..).symm⟩))⟩

theorem exec_rdbits_ends (start stop : Nat) :
    Ends (.rdbits start stop) s (exec (.rdbits start stop) s) := by
  cases hr : checkRange s.cfg.nbits start stop with
  | some e => exact ends_raised hflt (exec_rawCodec_of_error hflt (.inl rfl) hr)
  | none => exact ⟨_, exec_rdbits_of_ok hflt hr, .inr ⟨hflt, rfl⟩⟩

theorem exec_wrbits_ends (start stop : Nat) (value : Value) :
    Ends (.wrbits start stop value) s (exec (.wrbits start stop value) s) := by
  cases hr : checkRange s.cfg.nbits start stop with
  | some e => exact ends_raised hflt (exec_rawCodec_of_error hflt (.inr ⟨value, rfl⟩) hr)
  | none => exact ⟨_, exec_wrbits_of_ok hflt hr value, .inr ⟨hflt, hr, rfl⟩⟩

theorem exec_get_ends (f : Nat) : Ends (.get f) s (exec (.get f) s) := by
  cases hfld : s.cfg.fields[f]? with
  | none =>
    exact ends_badOperand hflt (exec_get_of_noField hflt (List.getElem?_eq_none_iff.1 hfld)) rfl
  | some fld =>
    cases hr : checkRange s.cfg.nbits fld.off (fieldStop fld) with
    | some e => exact ends_raised hflt (exec_get_of_rangeError hflt hfld hr)
    | none =>
      cases hw : fromContainer fld.kind (readBits s.buf fld.off (fieldStop fld)) with
      | ok w => exact ⟨_, exec_get_of_ok hflt hfld hr hw, .inr ⟨hflt, w, rfl⟩⟩
      | error e =>
        cases e with
        | malformedRepr =>
          exact ends_raised hflt (exec_get_of_malformedRepr hflt hfld hr hw)
        | invalidDiscriminant =>
          exact ends_invalidDiscriminant hflt (exec_get_of_invalidDiscriminant hflt hfld hr hw) rfl

theorem exec_set_ends (f : Nat) (v : Value) : Ends (.set f v) s (exec (.set f v) s) := by
  cases hfld : s.cfg.fields[f]? with
  | none =>
    exact ends_badOperand hflt (exec_set_of_noField hflt v (List.getElem?_eq_none_iff.1 hfld)) rfl
  | some fld =>
    by_cases hv : validTarget fld.kind fld.cwid v.toNat
    · obtain ⟨c, hc⟩ := exists_toContainer hv
      cases hr : checkRange s.cfg.nbits fld.off (fieldStop fld) with
      | some e => exact ends_raised hflt (exec_set_of_rangeError hflt hfld hc hr)
      | none => exact ⟨_, exec_set_of_ok hflt hfld hc hr, .inr ⟨hflt, fld, c, hfld, hc, hr, rfl⟩⟩
    · exact ends_badOperand hflt (exec_set_of_invalidTarget hflt hfld hv) rfl

end

theorem exec_ends (i : Instr) (s : State) : Ends i s (exec i s) := by
  cases hflt : s.flt with
  | some e => exact ⟨_, exec_of_faulted i hflt, .inl (.inl ⟨e, hflt, rfl⟩)⟩
  | none =>
    cases i with
    | rdbits start stop => exact exec_rdbits_ends hflt start stop
    | wrbits start stop value => exact exec_wrbits_ends hflt start stop value
    | get f => exact exec_get_ends hflt f
    | set f v => exact exec_set_ends hflt f v
    | new => exact ⟨_, exec_new_of_running hflt, .inr ⟨hflt, rfl⟩⟩

/-- Whatever state a command answers, the command has ended in it. -/
theorem exec_cases {i : Instr} {s t : State} (h : exec i s = .next t) :
    EndsInError i s t ∨ s.flt = none ∧ Completes s t i := by
  obtain ⟨t', ht', hends⟩ := exec_ends i s
  cases ht'.symm.trans h
  exact hends

theorem buf_of_endsInError {i : Instr} {s t : State} (h : EndsInError i s t) : t.buf = s.buf := by
  obtain ⟨e, -, rfl⟩ | ⟨e, -, rfl⟩ | ⟨x, -, -, -, rfl⟩ := h <;> rfl

/-- A command word runs the command it decodes to or, with any other opcode, is refused. -/
theorem runCommand_cases {w : Nat} {s t : State} (h : runCommand w s = .next t) :
    (∃ i, decode s.cfg.pw w = .ok i ∧ exec i s = .next t) ∨
    (∃ e, decode s.cfg.pw w = .error e ∧ s.flt = none ∧ t = emit .illegalCommand 0#128 s) ∨
    (∃ e, s.flt = some e ∧ t = emit .faulted ((fatalCode e).setWidth 128) s) := by
  cases hdec : decode s.cfg.pw w with
  | ok i => exact .inl ⟨i, rfl, (runCommand_of_decode_ok hdec).symm.trans h⟩
  | error e =>
    cases hflt : s.flt with
    | some e' =>
      cases (runCommand_of_faulted w hflt).symm.trans h
      exact .inr (.inr ⟨e', rfl, rfl⟩)
    | none =>
      have hrefuse : runCommand w s = refuseIllegalCommand s := by
        simp [runCommand, hdec, illegalCommand, unlessFaulted_none hflt]
      cases hrefuse.symm.trans h
      exact .inr (.inl ⟨e, rfl, rfl, rfl⟩)

/-! ### The one response -/

/-- The response a state adds to the record is the one appended. -/
theorem response_eq {rs : List Response} {r r' : Response} (h : rs ++ [r] = rs ++ [r']) : r' = r := by
  simpa using h.symm

/-- Only a completed write or zero-fill, which answers OK, changes the buffer (20_memory.md R46). -/
theorem buf_of_effect {s t : State} {r : Response} (h : CommandEffect s t)
    (hr : t.responses = s.responses ++ [r]) (hok : r.status ≠ .ok) : t.buf = s.buf := by
  obtain ⟨x, d, -, rfl⟩ | ⟨e, -, rfl⟩ | ⟨a, b, v, -, -, rfl⟩ | ⟨-, rfl⟩ := h
  · rfl
  · rfl
  all_goals exact absurd (congrArg Response.status (response_eq hr)) hok

/-- Settles O41: of a command's effects the two that write the buffer answer OK. -/
theorem errorsLeaveTheBufferAlone : Obligations.ErrorsLeaveTheBufferAlone :=
  fun _ _ _ _ h hr hok => buf_of_effect (effect_of_runCommand h) hr hok

/-- Only a raised fatal error writes the latch (R193). -/
theorem flt_of_effect {s t : State} {r : Response} (h : CommandEffect s t)
    (hr : t.responses = s.responses ++ [r]) (hfatal : ∀ e, r.status ≠ .fatal e) : t.flt = s.flt := by
  obtain ⟨x, d, -, rfl⟩ | ⟨e, -, rfl⟩ | ⟨a, b, v, -, -, rfl⟩ | ⟨-, rfl⟩ := h
  case inr.inl => exact absurd (congrArg Response.status (response_eq hr)) (hfatal e)
  all_goals rfl

/-! ### The mark -/

theorem isHostError_iff {x : Status} :
    isHostError x = true ↔ x = .badOperand ∨ x = .illegalCommand := by
  cases x <;> simp [isHostError]

theorem hostErr_of_effect {s t : State} {r : Response} (h : CommandEffect s t)
    (hr : t.responses = s.responses ++ [r]) : t.hostErr = (s.hostErr || isHostError r.status) := by
  obtain ⟨-, -, -, r', hr', hmark⟩ := h.frame
  rw [response_eq (hr'.symm.trans hr), hmark]

theorem hostErr_of_step {s t : State} (h : step s = .next t) (hs : s.hostErr = true) :
    t.hostErr = true := by
  obtain ⟨rest, -, rfl⟩ | ⟨w, i, l, -, hrun⟩ | ⟨-, -, rfl⟩ := step_cases h
  · exact hs
  · obtain ⟨-, -, -, r, -, hmark⟩ := (effect_of_runCommand hrun).frame
    rw [hmark, hs, Bool.true_or]
  · exact hs

/-- Settles O44: the one response of a command word sets the mark or leaves it, and reset leaves it. -/
theorem hostErrorsAreMarked : Obligations.HostErrorsAreMarked := by
  refine ⟨fun s t w r h hr => ?_, fun s t => hostErr_of_step⟩
  rw [hostErr_of_effect (effect_of_runCommand h) hr, Bool.or_eq_true, isHostError_iff]

/-! ### The response word -/

theorem getLsbD_responseWord (r : Response) (k : Nat) :
    (responseWord r).getLsbD k =
      if k < 128 then r.data.getLsbD k else (statusCode r.status).getLsbD (k - 128) :=
  BitVec.getLsbD_append

theorem extract_responseWord_status (r : Response) :
    (responseWord r).extractLsb' 128 8 = statusCode r.status := by
  apply BitVec.eq_of_getLsbD_eq
  intro k hk
  rw [BitVec.getLsbD_extractLsb', getLsbD_responseWord]
  simp [hk]

theorem extract_responseWord_data (r : Response) : (responseWord r).extractLsb' 0 128 = r.data := by
  apply BitVec.eq_of_getLsbD_eq
  intro k hk
  rw [BitVec.getLsbD_extractLsb', getLsbD_responseWord]
  simp [hk]

/-- The data of a response: `FLT` for Faulted, 0 for every other error, and 0 for an OK of a command that
is no reader. -/
def DataRule (flt : Option FatalError) (reader : Prop) (r : Response) : Prop :=
  (r.status = .faulted → r.data = (fltByte flt).setWidth 128) ∧
  (r.status ≠ .ok → r.status ≠ .faulted → r.data = 0) ∧
  (r.status = .ok → ¬reader → r.data = 0)

theorem dataRule_faulted {flt : Option FatalError} {e : FatalError} (reader : Prop)
    (h : flt = some e) :
    DataRule flt reader { status := .faulted, data := (fatalCode e).setWidth 128 } := by
  simp [DataRule, h, fltByte]

theorem dataRule_zero {flt : Option FatalError} {x : Status} (reader : Prop) (h : x ≠ .faulted) :
    DataRule flt reader { status := x, data := 0 } := by
  simp [DataRule, h]

theorem dataRule_reader {flt : Option FatalError} {reader : Prop} (d : Value) (h : reader) :
    DataRule flt reader { status := .ok, data := d } := by
  simp [DataRule, h]

/-- The command responds a value it reads. -/
def IsReader (i : Instr) : Prop := (∃ start stop, i = .rdbits start stop) ∨ ∃ f, i = .get f

theorem dataRule_of_exec {i : Instr} {s t : State} {r : Response} (h : exec i s = .next t)
    (hr : t.responses = s.responses ++ [r]) : DataRule s.flt (IsReader i) r := by
  obtain (⟨e, hflt, rfl⟩ | ⟨e, -, rfl⟩ | ⟨x, -, -, hx, rfl⟩) | ⟨-, hc⟩ := exec_cases h
  · exact response_eq hr ▸ dataRule_faulted _ hflt
  · exact response_eq hr ▸ dataRule_zero _ (by simp)
  · exact response_eq hr ▸ dataRule_zero _ (by obtain rfl | rfl := hx <;> simp)
  · cases i with
    | rdbits start stop =>
      subst hc
      exact response_eq hr ▸ dataRule_reader _ (.inl ⟨_, _, rfl⟩)
    | wrbits start stop value =>
      obtain ⟨-, rfl⟩ := hc
      exact response_eq hr ▸ dataRule_zero _ (by simp)
    | get f =>
      obtain ⟨w, rfl⟩ := hc
      exact response_eq hr ▸ dataRule_reader _ (.inr ⟨_, rfl⟩)
    | set f v =>
      obtain ⟨fld, c, -, -, -, rfl⟩ := hc
      exact response_eq hr ▸ dataRule_zero _ (by simp)
    | new =>
      subst hc
      exact response_eq hr ▸ dataRule_zero _ (by simp)

/-- The readers are the commands of opcodes 1 and 3 (30_encoding.md R73). -/
theorem commandOp_of_reader {pw w : Nat} {i : Instr} (hdec : decode pw w = .ok i) (hi : IsReader i) :
    commandOp pw w ∈ [1, 3] := by
  unfold decode at hdec
  split at hdec
  next hop => simp [hop]
  next hop => cases hdec; simp [IsReader] at hi
  next hop => simp [hop]
  next hop => cases hdec; simp [IsReader] at hi
  next hop => cases hdec; simp [IsReader] at hi
  next hop => cases hdec

theorem DataRule.weaken {flt : Option FatalError} {reader reader' : Prop} {r : Response}
    (h : DataRule flt reader r) (himp : reader → reader') : DataRule flt reader' r := by
  obtain ⟨hfaulted, herror, hok⟩ := h
  exact ⟨hfaulted, herror, fun hstatus hnot => hok hstatus fun hreader => hnot (himp hreader)⟩

theorem dataRule_of_runCommand {w : Nat} {s t : State} {r : Response} (h : runCommand w s = .next t)
    (hr : t.responses = s.responses ++ [r]) : DataRule s.flt (commandOp s.cfg.pw w ∈ [1, 3]) r := by
  obtain ⟨i, hdec, hexec⟩ | ⟨e, -, -, rfl⟩ | ⟨e, hflt, rfl⟩ := runCommand_cases h
  · exact (dataRule_of_exec hexec hr).weaken (commandOp_of_reader hdec)
  · exact response_eq hr ▸ dataRule_zero _ (by simp)
  · exact response_eq hr ▸ dataRule_faulted _ hflt

/-- Settles O43: the two fields of the concatenation, the codes, and the data by how the command ends. -/
theorem responseWordLayout : Obligations.ResponseWordLayout :=
  ⟨fun r => ⟨extract_responseWord_status r, extract_responseWord_data r⟩,
    rfl, rfl, rfl, rfl, rfl, rfl, rfl, rfl, rfl, fun _ _ _ _ => dataRule_of_runCommand⟩

/-! ### Frames -/

theorem hostErr_of_completes {i : Instr} {s t : State} (h : Completes s t i) :
    t.hostErr = s.hostErr := by
  have hemit (d : Value) (s' : State) : (emit .ok d s').hostErr = s'.hostErr := by simp [isHostError]
  cases i with
  | rdbits start stop => exact h ▸ hemit ..
  | wrbits start stop value =>
    obtain ⟨-, rfl⟩ := h
    exact hemit ..
  | get f =>
    obtain ⟨w, rfl⟩ := h
    exact hemit ..
  | set f v =>
    obtain ⟨fld, c, -, -, -, rfl⟩ := h
    exact hemit ..
  | new => exact h ▸ hemit ..

/-- A command sets the mark only by a BadOperand response, which only GET and SET give. -/
theorem hostErr_of_exec {i : Instr} {s t : State} {r : Response} (h : exec i s = .next t)
    (hr : t.responses = s.responses ++ [r]) (hi : namesField i = true → r.status ≠ .badOperand) :
    t.hostErr = s.hostErr := by
  obtain (⟨e, -, rfl⟩ | ⟨e, -, rfl⟩ | ⟨x, -, hfield, hx, rfl⟩) | ⟨-, hc⟩ := exec_cases h
  · simp [isHostError]
  · rfl
  · obtain rfl | rfl := hx
    · exact absurd (congrArg Response.status (response_eq hr)) (hi hfield)
    · simp [isHostError]
  · exact hostErr_of_completes hc

theorem effect_of_exec {i : Instr} {s t : State} (h : exec i s = .next t) : CommandEffect s t := by
  obtain ⟨t', ht', heff⟩ := exec_effect i s
  cases ht'.symm.trans h
  exact heff

/-- What every command leaves unchanged, by how it responds. -/
theorem exec_frame {i : Instr} {s t : State} (h : exec i s = .next t) :
    t.cfg = s.cfg ∧ t.inFlight = s.inFlight ∧ t.host = s.host ∧
    ∃ r, t.responses = s.responses ++ [r] ∧ (r.status ≠ .ok → t.buf = s.buf) ∧
      ((∀ e, r.status ≠ .fatal e) → t.flt = s.flt) ∧
      (r.status ≠ .badOperand → t.hostErr = s.hostErr) := by
  have heff := effect_of_exec h
  obtain ⟨hcfg, hfl, hhost, r, hr, -⟩ := heff.frame
  exact ⟨hcfg, hfl, hhost, r, hr, buf_of_effect heff hr, flt_of_effect heff hr,
    fun hstatus => hostErr_of_exec h hr fun _ => hstatus⟩

theorem buf_of_reader {i : Instr} {s t : State} (hi : IsReader i) (h : exec i s = .next t) :
    t.buf = s.buf := by
  obtain herror | ⟨-, hc⟩ := exec_cases h
  · exact buf_of_endsInError herror
  · obtain ⟨start, stop, rfl⟩ | ⟨f, rfl⟩ := hi
    · subst hc
      rfl
    · obtain ⟨w, rfl⟩ := hc
      rfl

/-- Settles O45: a reader completes with a response alone. -/
theorem readersFrame : Obligations.ReadersFrame := by
  intro s t i hi h
  have hbuf := buf_of_reader hi h
  obtain ⟨hcfg, hfl, hhost, r, hr, -, hlatch, hmark⟩ := exec_frame h
  exact ⟨hbuf, fun a => by rw [hbuf], hcfg, hfl, hhost, r, hr, hlatch, hmark⟩

/-- The buffers agree at every byte that `[start, stop)` does not overlap and at every position outside
it. -/
def AgreeOutside (start stop : Nat) (m m' : Memory) : Prop :=
  (∀ x, x < start / 8 ∨ (stop - 1) / 8 < x → Memory.byte m' x = Memory.byte m x) ∧
  (∀ p, ¬(start ≤ p ∧ p < stop) → Memory.bit m' p = Memory.bit m p)

theorem agreeOutside_of_eq {start stop : Nat} {m m' : Memory} (h : m' = m) :
    AgreeOutside start stop m m' := h ▸ ⟨fun _ _ => rfl, fun _ _ => rfl⟩

theorem agreeOutside_writeBits {m : Memory} {nbits start stop : Nat} (value : Nat)
    (hw : Memory.wf m = true) (hr : checkRange nbits start stop = none) :
    AgreeOutside start stop m (writeBits m start stop value) := by
  have hlt := (checkRange_none.1 hr).1
  exact ⟨fun x => byte_writeBits_outside value x hw hlt,
    fun p => bit_writeBits_outside value hw hlt.le⟩

/-- Settles O46: WRBITS ends in an error, or writes its checked range. -/
theorem wrbitsFrame : Obligations.WrbitsFrame := by
  intro s t start stop value hw h
  obtain ⟨hcfg, hfl, hhost, r, hr, hbuf, hlatch, -⟩ := exec_frame h
  have hagree : AgreeOutside start stop s.buf t.buf := by
    obtain herror | ⟨-, hrange, rfl⟩ := exec_cases h
    · exact agreeOutside_of_eq (buf_of_endsInError herror)
    · exact agreeOutside_writeBits _ hw hrange
  have hmark := hostErr_of_exec h hr (by simp [namesField])
  exact ⟨hagree.1, hagree.2, hcfg, hfl, hhost, hmark, r, hr, hbuf, hlatch⟩

/-- Settles O47: SET ends in an error, or writes the checked range of the field it names. -/
theorem setFrame : Obligations.SetFrame := by
  intro s t f v hw h
  refine ⟨fun fld hfld => ?_, fun hnone => ?_, exec_frame h⟩
  · obtain herror | ⟨-, fld', c, hfld', -, hrange, rfl⟩ := exec_cases h
    · exact agreeOutside_of_eq (buf_of_endsInError herror)
    · obtain rfl : fld' = fld := Option.some.inj (hfld'.symm.trans hfld)
      exact agreeOutside_writeBits c hw hrange
  · obtain herror | ⟨-, fld', c, hfld', -⟩ := exec_cases h
    · exact buf_of_endsInError herror
    · simp [hnone] at hfld'

/-- Settles O48: NEW is refused by a faulted unit, or zero-fills the `NB` bytes. -/
theorem newFrame : Obligations.NewFrame := by
  intro s t hw h
  obtain ⟨hcfg, hfl, hhost, r, hr, -⟩ := exec_frame h
  have hmark := hostErr_of_exec h hr (by simp [namesField])
  have hunit : t.flt = s.flt ∧
      (∀ a, s.cfg.nb ≤ a → Memory.byte t.buf a = Memory.byte s.buf a) ∧
      (s.flt ≠ none → t.buf = s.buf) := by
    cases hflt : s.flt with
    | some e =>
      cases (exec_of_faulted .new hflt).symm.trans h
      exact ⟨hflt, fun _ _ => rfl, fun _ => rfl⟩
    | none =>
      cases (exec_new_of_running hflt).symm.trans h
      exact ⟨hflt, fun a ha => (byte_zeroFill _ a hw).trans (if_neg (by omega)),
        fun hfaulted => absurd rfl hfaulted⟩
  obtain ⟨hlatch, hbytes, hfaulted⟩ := hunit
  exact ⟨hlatch, hbytes, hfaulted, hcfg, hfl, hhost, hmark, r, hr⟩

end Sys2Proof.Proofs
end

section
/-! SUPPORT. The statuses of each command (60_exceptions.md R192) and the buffer a list of command words
leaves (20_memory.md R51). -/

namespace Sys2Proof.Proofs

open Sys2Proof.Machine Sys2Proof.Laws Sys2Proof.Safety

/-! ### The statuses of each command -/

/-- The outcome is a next state with one response more, of one of the statuses `xs`. -/
def AnswersOneOf (s : State) (o : StepOutcome) (xs : List Status) : Prop :=
  ∃ t r, o = .next t ∧ t.responses = s.responses ++ [r] ∧ r.status ∈ xs

theorem AnswersOneOf.status_mem {s t : State} {o : StepOutcome} {xs : List Status} {r : Response}
    (h : AnswersOneOf s o xs) (ho : o = .next t) (hr : t.responses = s.responses ++ [r]) :
    r.status ∈ xs := by
  obtain ⟨t', r', ho', hr', hmem⟩ := h
  cases ho'.symm.trans ho
  rwa [response_eq (hr'.symm.trans hr)]

section
variable {s : State} {o : StepOutcome} {xs : List Status}

theorem answersOneOf_emit {x : Status} {d : Value} {t : State} (ho : o = .next (emit x d t))
    (ht : t.responses = s.responses) (hx : x ∈ xs) : AnswersOneOf s o xs :=
  ⟨_, _, ho, by rw [emit_responses, ht], hx⟩

theorem answersOneOf_raised {e : FatalError} (ho : o = .next (raised e s)) (hx : .fatal e ∈ xs) :
    AnswersOneOf s o xs :=
  ⟨_, _, ho, rfl, hx⟩

end

/-- A faulted unit answers Faulted, so the statuses of a command are Faulted and those of the running
unit. -/
theorem answersOneOf_exec {i : Instr} {s : State} {xs : List Status} (hfaulted : .faulted ∈ xs)
    (hrunning : s.flt = none → AnswersOneOf s (exec i s) xs) : AnswersOneOf s (exec i s) xs := by
  cases hflt : s.flt with
  | some e => exact answersOneOf_emit (exec_of_faulted i hflt) rfl hfaulted
  | none => exact hrunning hflt

theorem rawCodec_statuses {start stop : Nat} {i : Instr} (s : State) (hi : IsRawCodec start stop i) :
    AnswersOneOf s (exec i s)
      [.ok, .fatal .emptyRange, .fatal .outOfBounds, .fatal .unsupportedWidth, .faulted] := by
  refine answersOneOf_exec (by simp) fun hflt => ?_
  cases hr : checkRange s.cfg.nbits start stop with
  | some e =>
    refine answersOneOf_raised (exec_rawCodec_of_error hflt hi hr) ?_
    obtain ⟨rfl, -⟩ | ⟨rfl, -⟩ | ⟨rfl, -⟩ := checkRange_some hr <;> simp
  | none =>
    obtain ⟨t, d, ht, -, hresp⟩ := exec_rawCodec_of_ok hflt hi hr
    exact ⟨t, _, ht, hresp, by simp⟩

theorem new_statuses (s : State) : AnswersOneOf s (exec .new s) [.ok, .faulted] :=
  answersOneOf_exec (by simp) fun hflt => answersOneOf_emit (exec_new_of_running hflt) rfl (by simp)

theorem illegal_statuses {s : State} {w : Nat} (hop : commandOp s.cfg.pw w ∉ [1, 2, 3, 4, 5]) :
    AnswersOneOf s (runCommand w s) [.illegalCommand, .faulted] := by
  cases hflt : s.flt with
  | some e => exact answersOneOf_emit (runCommand_of_faulted w hflt) rfl (by simp)
  | none => exact answersOneOf_emit (runCommand_of_illegal hflt hop) rfl (by simp)

section
variable {s : State} (hwf : configWf s.cfg = true)
include hwf

/-- In a well-formed configuration a field's range is legal or empty, and its bits convert. -/
theorem get_statuses (f : Nat) :
    AnswersOneOf s (exec (.get f) s) [.ok, .fatal .emptyRange, .badOperand, .faulted] := by
  refine answersOneOf_exec (by simp) fun hflt => ?_
  cases hfld : s.cfg.fields[f]? with
  | none =>
    have hf := List.getElem?_eq_none_iff.1 hfld
    exact answersOneOf_emit (exec_get_of_noField hflt hf) rfl (by simp)
  | some fld =>
    obtain hzero | hbits := Nat.eq_zero_or_pos fld.bits
    · exact answersOneOf_raised (zeroWidthFieldsRaise s f fld hwf hflt hfld hzero).1 (by simp)
    · obtain ⟨t, -, -, hexec⟩ := exec_get_completes hwf hflt hfld hbits
      exact answersOneOf_emit hexec rfl (by simp)

theorem set_statuses (f : Nat) (v : Value) :
    AnswersOneOf s (exec (.set f v) s) [.ok, .fatal .emptyRange, .badOperand, .faulted] := by
  refine answersOneOf_exec (by simp) fun hflt => ?_
  cases hfld : s.cfg.fields[f]? with
  | none =>
    have hf := List.getElem?_eq_none_iff.1 hfld
    exact answersOneOf_emit (exec_set_of_noField hflt v hf) rfl (by simp)
  | some fld =>
    by_cases hv : validTarget fld.kind fld.cwid v.toNat
    · obtain hzero | hbits := Nat.eq_zero_or_pos fld.bits
      · obtain ⟨-, hset, -⟩ := zeroWidthFieldsRaise s f fld hwf hflt hfld hzero
        exact answersOneOf_raised (hset v hv) (by simp)
      · obtain ⟨c, hc⟩ := exists_toContainer hv
        exact answersOneOf_emit (exec_set_of_ok hflt hfld hc (checkRange_field hwf hfld hbits)) rfl
          (by simp)
    · exact answersOneOf_emit (exec_set_of_invalidTarget hflt hfld hv) rfl (by simp)

end

/-- Settles O37: neither error is among the statuses of GET in a well-formed configuration. -/
theorem deadBranchesAreNeverTaken : Obligations.DeadBranchesAreNeverTaken := by
  intro s t f r hwf h hr
  have hmem := (get_statuses hwf f).status_mem h hr
  exact ⟨fun hx => by simp [hx] at hmem, fun hx => by simp [hx] at hmem⟩

/-- Settles O39: one list of statuses per command; GET has fewer than R192 allows it. -/
theorem statusesOfEachCommand : Obligations.StatusesOfEachCommand := by
  refine fun s t r hwf hr => ⟨fun start stop h => (rawCodec_statuses s (.inl rfl)).status_mem h hr,
    fun start stop value h => (rawCodec_statuses s (.inr ⟨value, rfl⟩)).status_mem h hr,
    fun f h => ?_, fun f v h => (set_statuses hwf f v).status_mem h hr,
    fun h => (new_statuses s).status_mem h hr, fun w hop h => (illegal_statuses hop).status_mem h hr⟩
  have hsub : [.ok, .fatal .emptyRange, .badOperand, .faulted] ⊆
      [Status.ok, .fatal .emptyRange, .fatal .malformedRepr, .invalidDiscriminant, .badOperand,
        .faulted] := by decide
  exact hsub ((get_statuses hwf f).status_mem h hr)

/-! ### The bit each command word writes -/

section
variable {s t : State} (hw : Memory.wf s.buf = true) (hflt : s.flt = none) (p : Nat)
include hw hflt

theorem bit_exec_wrbits {start stop : Nat} {value : Value}
    (h : exec (.wrbits start stop value) s = .next t) :
    Memory.bit t.buf p =
      if checkRange s.cfg.nbits start stop = none ∧ start ≤ p ∧ p < stop then
        value.getLsbD (stop - 1 - p)
      else Memory.bit s.buf p := by
  cases hr : checkRange s.cfg.nbits start stop with
  | some e =>
    cases (exec_rawCodec_of_error hflt (.inr ⟨value, rfl⟩) hr).symm.trans h
    simp [raised]
  | none =>
    cases (exec_wrbits_of_ok hflt hr value).symm.trans h
    have hbit := bit_writeBits value.toNat p hw (checkRange_none.1 hr).1.le
    rw [BitVec.testBit_toNat] at hbit
    simpa using hbit

theorem bit_exec_set {f : Nat} {v : Value} {fld : Field} {c : Nat} (hfld : s.cfg.fields[f]? = some fld)
    (hc : toContainer fld.kind fld.cwid v.toNat = some c) (h : exec (.set f v) s = .next t) :
    Memory.bit t.buf p =
      if checkRange s.cfg.nbits fld.off (fieldStop fld) = none ∧ fld.off ≤ p ∧ p < fieldStop fld then
        c.testBit (fieldStop fld - 1 - p)
      else Memory.bit s.buf p := by
  cases hr : checkRange s.cfg.nbits fld.off (fieldStop fld) with
  | some e =>
    cases (exec_set_of_rangeError hflt hfld hc hr).symm.trans h
    simp [raised]
  | none =>
    cases (exec_set_of_ok hflt hfld hc hr).symm.trans h
    simpa using bit_writeBits c p hw (checkRange_none.1 hr).1.le

theorem bit_exec_new (h : exec .new s = .next t) :
    Memory.bit t.buf p = if p < s.cfg.nbits then false else Memory.bit s.buf p := by
  cases (exec_new_of_running hflt).symm.trans h
  have hbyte : p / 8 < s.cfg.nb ↔ p < s.cfg.nbits := by
    unfold Config.nbits
    omega
  rw [emit_buf, setBuf_buf, Memory.bit, byte_zeroFill _ _ hw, apply_ite (BitVec.getLsbD · (7 - p % 8)),
    Memory.bit]
  simp [hbyte]

end

/-- SET without a field, or without a container value for its operand, writes nothing. -/
theorem buf_of_set_without_container {s t : State} {f : Nat} {v : Value}
    (hnone : ∀ fld, s.cfg.fields[f]? = some fld → toContainer fld.kind fld.cwid v.toNat = none)
    (h : exec (.set f v) s = .next t) : t.buf = s.buf := by
  obtain herror | ⟨-, fld, c, hfld, hc, -⟩ := exec_cases h
  · exact buf_of_endsInError herror
  · simp [hnone fld hfld] at hc

theorem writtenBit_of_faulted {s : State} {e : FatalError} (w p : Nat) (hflt : s.flt = some e) :
    writtenBit s w p = none := by
  simp [writtenBit, hflt]

section
variable {s : State} {w : Nat} (p : Nat) (hflt : s.flt = none)
include hflt

theorem writtenBit_of_illegal {e : DecodeError} (hdec : decode s.cfg.pw w = .error e) :
    writtenBit s w p = none := by
  simp [writtenBit, hflt, hdec]

theorem writtenBit_of_reader {i : Instr} (hdec : decode s.cfg.pw w = .ok i) (hi : IsReader i) :
    writtenBit s w p = none := by
  obtain ⟨start, stop, rfl⟩ | ⟨f, rfl⟩ := hi <;> simp [writtenBit, hflt, hdec]

theorem writtenBit_of_wrbits {start stop : Nat} {value : Value}
    (hdec : decode s.cfg.pw w = .ok (.wrbits start stop value)) :
    writtenBit s w p =
      if checkRange s.cfg.nbits start stop = none ∧ start ≤ p ∧ p < stop then
        some (value.getLsbD (stop - 1 - p))
      else none := by
  simp [writtenBit, hflt, hdec]

theorem writtenBit_of_set {f c : Nat} {v : Value} {fld : Field}
    (hdec : decode s.cfg.pw w = .ok (.set f v)) (hfld : s.cfg.fields[f]? = some fld)
    (hc : toContainer fld.kind fld.cwid v.toNat = some c) :
    writtenBit s w p =
      if checkRange s.cfg.nbits fld.off (fieldStop fld) = none ∧ fld.off ≤ p ∧ p < fieldStop fld then
        some (c.testBit (fieldStop fld - 1 - p))
      else none := by
  simp [writtenBit, hflt, hdec, hfld, hc]

theorem writtenBit_of_set_without_container {f : Nat} {v : Value}
    (hdec : decode s.cfg.pw w = .ok (.set f v))
    (hnone : ∀ fld, s.cfg.fields[f]? = some fld → toContainer fld.kind fld.cwid v.toNat = none) :
    writtenBit s w p = none := by
  cases hfld : s.cfg.fields[f]? with
  | none => simp [writtenBit, hflt, hdec, hfld]
  | some fld => simp [writtenBit, hflt, hdec, hfld, hnone fld hfld]

theorem writtenBit_of_new (hdec : decode s.cfg.pw w = .ok .new) :
    writtenBit s w p = if p < s.cfg.nbits then some false else none := by
  simp [writtenBit, hflt, hdec]

end

theorem getD_ite_some (q : Prop) [Decidable q] (b before : Bool) :
    (if q then some b else none).getD before = if q then b else before := by
  split <;> rfl

/-- A running unit that runs the command a word decodes to has at each position the bit the word writes
there, else the bit it had. -/
theorem bit_exec {w : Nat} {i : Instr} {s t : State} (hw : Memory.wf s.buf = true)
    (hflt : s.flt = none) (hdec : decode s.cfg.pw w = .ok i) (h : exec i s = .next t) (p : Nat) :
    Memory.bit t.buf p = (writtenBit s w p).getD (Memory.bit s.buf p) := by
  have hreader (hi : IsReader i) :
      Memory.bit t.buf p = (writtenBit s w p).getD (Memory.bit s.buf p) := by
    rw [writtenBit_of_reader p hflt hdec hi, buf_of_reader hi h, Option.getD_none]
  cases i with
  | rdbits start stop => exact hreader (.inl ⟨start, stop, rfl⟩)
  | wrbits start stop value =>
    rw [bit_exec_wrbits hw hflt p h, writtenBit_of_wrbits p hflt hdec, getD_ite_some]
  | get f => exact hreader (.inr ⟨f, rfl⟩)
  | set f v =>
    by_cases hset : ∃ fld c, s.cfg.fields[f]? = some fld ∧
        toContainer fld.kind fld.cwid v.toNat = some c
    · obtain ⟨fld, c, hfld, hc⟩ := hset
      rw [bit_exec_set hw hflt p hfld hc h, writtenBit_of_set p hflt hdec hfld hc, getD_ite_some]
    · have hnone : ∀ fld, s.cfg.fields[f]? = some fld →
          toContainer fld.kind fld.cwid v.toNat = none := fun fld hfld =>
        Option.eq_none_iff_forall_ne_some.2 fun c hc => hset ⟨fld, c, hfld, hc⟩
      rw [writtenBit_of_set_without_container p hflt hdec hnone, buf_of_set_without_container hnone h,
        Option.getD_none]
  | new => rw [bit_exec_new hw hflt p h, writtenBit_of_new p hflt hdec, getD_ite_some]

/-- After a command word each bit is the one the word writes there, else the bit it was. -/
theorem bit_runCommand {w : Nat} {s t : State} (hw : Memory.wf s.buf = true)
    (h : runCommand w s = .next t) (p : Nat) :
    Memory.bit t.buf p = (writtenBit s w p).getD (Memory.bit s.buf p) := by
  cases hflt : s.flt with
  | some e =>
    cases (runCommand_of_faulted w hflt).symm.trans h
    rw [writtenBit_of_faulted w p hflt, emit_buf, Option.getD_none]
  | none =>
    obtain ⟨i, hdec, hexec⟩ | ⟨e, hdec, -, rfl⟩ | ⟨e, he, -⟩ := runCommand_cases h
    · exact bit_exec hw hflt hdec hexec p
    · rw [writtenBit_of_illegal p hflt hdec, emit_buf, Option.getD_none]
    · simp [hflt] at he

/-! ### Lists of command words -/

theorem wf_of_effect {s t : State} (h : CommandEffect s t) (hw : Memory.wf s.buf = true) :
    Memory.wf t.buf = true := by
  obtain ⟨x, d, -, rfl⟩ | ⟨e, -, rfl⟩ | ⟨a, b, v, -, -, rfl⟩ | ⟨-, rfl⟩ := h
  · exact hw
  · exact hw
  · exact wf_writeBits a b v hw
  · exact wf_zeroFill _ hw

/-- The first word of a list leaves a state, and the rest of the list runs from it. -/
theorem runCommands_cons {s t : State} {w : Nat} {ws : List Nat}
    (h : runCommands s (w :: ws) = .next t) :
    ∃ u, runCommand w s = .next u ∧ runCommands u ws = .next t := by
  obtain ⟨u, hu⟩ := exists_runCommand_next w s
  exact ⟨u, hu, by simpa [runCommands, hu] using h⟩

theorem bit_runCommands {s t : State} {ws : List Nat} (hw : Memory.wf s.buf = true)
    (h : runCommands s ws = .next t) (p : Nat) :
    Memory.bit t.buf p = latestBit p s (Memory.bit s.buf p) ws := by
  induction ws generalizing s with
  | nil => cases h; rfl
  | cons w ws ih =>
    obtain ⟨u, hu, hrest⟩ := runCommands_cons h
    rw [ih (wf_of_effect (effect_of_runCommand hu) hw) hrest, bit_runCommand hw hu p]
    simp [latestBit, hu]

/-- Settles O42, by induction on the words; a read is the weighted sum of the bits so described. -/
theorem readsReturnTheLatestWrite : Obligations.ReadsReturnTheLatestWrite := by
  intro s t ws hw h
  refine ⟨bit_runCommands hw h, fun start stop hlt => ?_⟩
  rw [readBits_eq_weightedSum t.buf hlt.le, weightedSum]
  simp only [bit_runCommands hw h]

end Sys2Proof.Proofs
end

section
/-! SUPPORT. The configuration functions (42_configuration.md R152 to R167; 20_memory.md R49): when each
error of the enum derivation applies, the partition of the buffer by a well-formed field table, what the
planner places and checks, and well-formed configurations as those that elaborate. -/

namespace Sys2Proof.Proofs

open Sys2Proof.Machine Sys2Proof.Safety

/-! ### The errors of the enum derivation -/

theorem isPowerOfTwo_iff_exists {count : Nat} : isPowerOfTwo count = true ↔ ∃ b, count = 2 ^ b := by
  rw [isPowerOfTwo_iff]
  refine ⟨fun h => ⟨_, h⟩, ?_⟩
  rintro ⟨b, rfl⟩
  rw [Nat.log2_two_pow]

theorem mem_declaredLiterals {vs : List Variant} {d : Int} :
    d ∈ declaredLiterals 0 vs ↔ ∃ (i : Nat) (v : Variant), vs[i]? = some v ∧ declares v i = d := by
  simp [List.mem_iff_getElem?, getElem?_declaredLiterals]

theorem overflows_iff {count : Nat} {d : Int} :
    overflows count d = true ↔ d < 0 ∨ ∃ b, count = 2 ^ b ∧ (2 : Int) ^ b ≤ d := by
  rw [overflows, Bool.or_eq_true, Bool.and_eq_true, decide_eq_true_eq, decide_eq_true_eq,
    isPowerOfTwo_iff]
  refine or_congr_right ⟨fun ⟨hcount, hle⟩ => ⟨_, hcount, hle⟩, ?_⟩
  rintro ⟨b, rfl, hle⟩
  rw [Nat.log2_two_pow]
  exact ⟨rfl, hle⟩

section
variable {vs : List Variant}

theorem nonPowerOfTwo_mem_enumErrors :
    .nonPowerOfTwoVariantCount ∈ enumErrors vs ↔ isPowerOfTwo vs.length = false := by
  simp [enumErrors]

theorem overflow_mem_enumErrors :
    .discriminantOverflow ∈ enumErrors vs ↔
      ∃ d ∈ declaredLiterals 0 vs, overflows vs.length d = true := by
  simp [enumErrors]

theorem duplicate_mem_enumErrors :
    .duplicateDiscriminant ∈ enumErrors vs ↔ ¬(declaredLiterals 0 vs).Nodup := by
  simp [enumErrors, ← allDistinct_iff_nodup]

end

/-- Two variants share a literal exactly when the list of literals repeats. -/
theorem not_nodup_declaredLiterals {vs : List Variant} :
    ¬(declaredLiterals 0 vs).Nodup ↔
      ∃ (i j : Nat) (v v' : Variant), i < j ∧ vs[i]? = some v ∧ vs[j]? = some v' ∧
        declares v i = declares v' j := by
  rw [List.nodup_iff_getElem?_ne_getElem?]
  push Not
  simp only [getElem?_declaredLiterals, Nat.zero_add, length_declaredLiterals]
  constructor
  · rintro ⟨i, j, hij, hj, heq⟩
    rw [List.getElem?_eq_getElem (hij.trans hj), List.getElem?_eq_getElem hj] at heq
    exact ⟨i, j, _, _, hij, List.getElem?_eq_getElem _, List.getElem?_eq_getElem hj,
      Option.some.inj heq⟩
  · rintro ⟨i, j, v, v', hij, hi, hj, heq⟩
    exact ⟨i, j, hij, (List.getElem?_eq_some_iff.1 hj).1, by simp [hi, hj, heq]⟩

/-- Settles O51: each error is one test of the derivation. -/
theorem enumErrorsApplyExactly : Obligations.EnumErrorsApplyExactly := by
  refine fun vs => ⟨?_, ?_, ?_⟩
  · rw [nonPowerOfTwo_mem_enumErrors, ← Bool.not_eq_true, isPowerOfTwo_iff_exists]
  · rw [overflow_mem_enumErrors]
    constructor
    · rintro ⟨d, hd, hover⟩
      obtain ⟨i, v, hv, rfl⟩ := mem_declaredLiterals.1 hd
      exact ⟨i, v, hv, overflows_iff.1 hover⟩
    · rintro ⟨i, v, hv, hover⟩
      exact ⟨_, mem_declaredLiterals.2 ⟨i, v, hv, rfl⟩, overflows_iff.2 hover⟩
  · rw [duplicate_mem_enumErrors, not_nodup_declaredLiterals]

/-! ### Well-formed field tables -/

theorem fieldAdmitted_iff {fld : Field} :
    fieldAdmitted fld = true ↔
      kindAdmitted fld.kind fld.bits = true ∧ bestFit fld.bits = .ok fld.cwid := by
  rw [fieldAdmitted, Bool.and_eq_true]
  cases bestFit fld.bits with
  | ok cwid => rw [decide_eq_true_eq, Except.ok.injEq, @eq_comm _ cwid]
  | error e => simp

theorem configWf_iff {c : Config} :
    configWf c = true ↔ (∀ fld ∈ c.fields, fieldAdmitted fld = true) ∧
      fieldsChained 0 c.fields = true ∧ 8 * c.nb = totalBits c.fields ∧ 8 * c.nb < 2 ^ c.pw := by
  simp only [configWf, Bool.and_eq_true, List.all_eq_true, decide_eq_true_eq, and_assoc]

/-- The fields of a chained table leave no gap. -/
theorem exists_field_at {fields : List Field} {off p : Nat} (hc : fieldsChained off fields = true)
    (h1 : off ≤ p) (h2 : p < off + totalBits fields) :
    ∃ (f : Nat) (fld : Field), fields[f]? = some fld ∧ fld.off ≤ p ∧ p < fieldStop fld := by
  induction fields generalizing off with
  | nil => simp [totalBits] at h2; omega
  | cons g fields ih =>
    simp only [fieldsChained, Bool.and_eq_true, decide_eq_true_eq] at hc
    obtain ⟨hoff, hrest⟩ := hc
    have htotal : totalBits (g :: fields) = g.bits + totalBits fields := by simp [totalBits]
    by_cases hp : p < off + g.bits
    · exact ⟨0, g, rfl, by omega, by unfold fieldStop; omega⟩
    · obtain ⟨f, fld, hf, hin⟩ := ih hrest (by omega) (by omega)
      exact ⟨f + 1, fld, by simpa using hf, hin⟩

/-- Settles O53: a chained table leaves no gap, and two of its ranges share no position. -/
theorem fieldsPartitionTheBuffer : Obligations.FieldsPartitionTheBuffer := by
  intro c hwf
  obtain ⟨hadm, hchain, htotal, -⟩ := configWf_iff.1 hwf
  refine ⟨fun p hp => ?_, fun f fld next hf hnext => ?_, fun f fld hf => ?_⟩
  · have hlt : p < 0 + totalBits c.fields := by
      rw [Nat.zero_add, ← htotal]
      exact hp
    obtain ⟨f, fld, hf, h1, h2⟩ := exists_field_at hchain (Nat.zero_le p) hlt
    refine ⟨f, ⟨fld, hf, h1, h2⟩, ?_⟩
    rintro g ⟨fld', hg, h1', h2'⟩
    by_contra hne
    have hdisj := fields_disjoint hwf hg hf hne
    unfold fieldStop at h2 hdisj
    omega
  · exact (off_of_wf hwf hnext).trans (fieldStop_of_wf hwf hf).symm
  · obtain ⟨hkind, hfit⟩ := fieldAdmitted_iff.1 (fieldAdmitted_of_wf hwf hf)
    exact ⟨fieldStop_le_nbits hwf hf, bits_le_of_kindAdmitted hkind, hfit⟩

/-! ### Specifiers -/

theorem makeSpecifier_of_fit {kind : Kind} {bits : Nat} {cwid : NativeWidth}
    (h : bestFit bits = .ok cwid) : makeSpecifier kind bits = .ok { kind, bits, cwid } := by
  simp [makeSpecifier, h]

/-- Every width up to 128 has a specifier. -/
theorem exists_makeSpecifier (kind : Kind) {bits : Nat} (h : bits ≤ 128) :
    ∃ sp, makeSpecifier kind bits = .ok sp := by
  obtain ⟨cwid, hfit⟩ := exists_bestFit h
  exact ⟨_, makeSpecifier_of_fit hfit⟩

/-- The types that have a specifier: `prim(0..64)`, `bool`, and the enums derived successfully and of at
most 63 bits (R154; log 15). -/
def HasSpecifier (type : TypeDecl) : Prop :=
  (∃ n, type = .prim n ∧ n ≤ 64) ∨ type = .bool ∨
    ∃ vs sp, type = .enum vs ∧ deriveEnum vs = .ok sp ∧ sp.bits ≤ 63

theorem specifierOf_prim (n : Nat) :
    specifierOf (.prim n) =
      if n ≤ 64 then makeSpecifier (.prim n) n else .error [.unknownSpecifier] := rfl

theorem specifierOf_enum_of_ok {vs : List Variant} {sp : Specifier} (h : deriveEnum vs = .ok sp) :
    specifierOf (.enum vs) = if sp.bits ≤ enumBits then .ok sp else .error [.unknownSpecifier] := by
  simp [specifierOf, h]

theorem specifierOf_enum_of_error {vs : List Variant} {es : List ConfigError}
    (h : deriveEnum vs = .error es) :
    specifierOf (.enum vs) = .error (es ++ [.unknownSpecifier]) := by
  simp [specifierOf, h]

theorem exists_specifierOf {type : TypeDecl} (h : HasSpecifier type) :
    ∃ sp, specifierOf type = .ok sp := by
  obtain ⟨n, rfl, hn⟩ | rfl | ⟨vs, sp, rfl, hsp, hbits⟩ := h
  · rw [specifierOf_prim, if_pos hn]
    exact exists_makeSpecifier (.prim n) (by omega)
  · exact ⟨_, rfl⟩
  · exact ⟨sp, (specifierOf_enum_of_ok hsp).trans (if_pos hbits)⟩

theorem specifierOf_prim_eq_ok {n : Nat} {sp : Specifier} (h : specifierOf (.prim n) = .ok sp) :
    n ≤ 64 ∧ makeSpecifier (.prim n) n = .ok sp := by
  rw [specifierOf_prim] at h
  split at h
  next hn => exact ⟨hn, h⟩
  next => cases h

theorem specifierOf_enum_eq_ok {vs : List Variant} {sp : Specifier}
    (h : specifierOf (.enum vs) = .ok sp) : deriveEnum vs = .ok sp ∧ sp.bits ≤ enumBits := by
  cases hderive : deriveEnum vs with
  | error es =>
    rw [specifierOf_enum_of_error hderive] at h
    cases h
  | ok sp' =>
    rw [specifierOf_enum_of_ok hderive] at h
    split at h
    next hbits => cases h; exact ⟨rfl, hbits⟩
    next => cases h

/-- A derived enum of at most 63 bits is an admitted kind (R155 to R159, R167). -/
theorem kindAdmitted_of_deriveEnum {vs : List Variant} {sp : Specifier} (h : deriveEnum vs = .ok sp)
    (hmax : sp.bits ≤ enumBits) : kindAdmitted sp.kind sp.bits = true := by
  obtain ⟨herrors, hkind, hbits, -⟩ := deriveEnum_eq_ok h
  obtain ⟨hcount, hrange, hnd⟩ := enumErrors_eq_nil.1 herrors
  rw [← hbits] at hcount hrange
  have hdistinct := nodup_map_toNat (fun d hd => (hrange d hd).1) hnd
  have hlt : ∀ d ∈ declaredLiterals 0 vs, d.toNat < 2 ^ sp.bits := fun d hd => by
    rw [Int.toNat_lt (hrange d hd).1]
    exact_mod_cast (hrange d hd).2
  rw [hkind, kindAdmitted_enum_iff, List.length_map, length_declaredLiterals, List.forall_mem_map]
  exact ⟨hmax, hcount, hlt, hdistinct⟩

/-- A type that has a specifier is one of R154's; its kind, width and container are admitted. -/
theorem specifierOf_eq_ok {type : TypeDecl} {sp : Specifier} (h : specifierOf type = .ok sp) :
    HasSpecifier type ∧ kindAdmitted sp.kind sp.bits = true ∧ bestFit sp.bits = .ok sp.cwid := by
  cases type with
  | prim n =>
    obtain ⟨hn, hmake⟩ := specifierOf_prim_eq_ok h
    obtain ⟨hkind, hbits, hfit⟩ := makeSpecifier_eq_ok hmake
    exact ⟨.inl ⟨n, rfl, hn⟩, by simp [hkind, hbits, kindAdmitted, hn], hfit⟩
  | bool =>
    cases h
    exact ⟨.inr (.inl rfl), rfl, rfl⟩
  | enum vs =>
    obtain ⟨hderive, hmax⟩ := specifierOf_enum_eq_ok h
    obtain ⟨-, -, -, hfit⟩ := deriveEnum_eq_ok hderive
    exact ⟨.inr (.inr ⟨vs, sp, rfl, hderive, hmax⟩), kindAdmitted_of_deriveEnum hderive hmax, hfit⟩
  | other => cases h

theorem makeSpecifier_eq_error {kind : Kind} {bits : Nat} {es : List ConfigError}
    (h : makeSpecifier kind bits = .error es) : es = [.unsupportedWidth] := by
  unfold makeSpecifier at h
  by_cases hbits : bits ≤ 128
  · obtain ⟨cwid, hfit⟩ := exists_bestFit hbits
    simp [hfit] at h
  · rw [bestFit_unsupported (by omega)] at h
    exact (Except.error.inj h).symm

/-- A derivation fails with the errors that apply, or with a width no container holds. -/
theorem deriveEnum_eq_error {vs : List Variant} {es : List ConfigError}
    (h : deriveEnum vs = .error es) : es = enumErrors vs ∨ es = [.unsupportedWidth] := by
  unfold deriveEnum at h
  split at h
  next => exact .inr (makeSpecifier_eq_error h)
  next herrors => exact .inl (herrors ▸ (Except.error.inj h).symm)

/-- A type without a specifier has UnknownSpecifier among its errors, and no error of the planner
(log 9). -/
theorem specifierOf_eq_error {type : TypeDecl} {es : List ConfigError}
    (h : specifierOf type = .error es) :
    .unknownSpecifier ∈ es ∧ ∀ name expected actual, .widthMismatch name expected actual ∉ es := by
  have hunknown : .unknownSpecifier ∈ [ConfigError.unknownSpecifier] ∧
      ∀ name expected actual, .widthMismatch name expected actual ∉ [ConfigError.unknownSpecifier] := by
    simp
  cases type with
  | prim n =>
    by_cases hn : n ≤ 64
    · obtain ⟨sp, hsp⟩ := exists_specifierOf (.inl ⟨n, rfl, hn⟩)
      cases hsp.symm.trans h
    · rw [specifierOf_prim, if_neg hn] at h
      cases h
      exact hunknown
  | bool => cases h
  | enum vs =>
    cases hderive : deriveEnum vs with
    | ok sp =>
      rw [specifierOf_enum_of_ok hderive] at h
      split at h
      next => cases h
      next => cases h; exact hunknown
    | error es' =>
      rw [specifierOf_enum_of_error hderive] at h
      cases h
      obtain rfl | rfl := deriveEnum_eq_error hderive <;> simp [enumErrors]
  | other =>
    cases h
    exact hunknown

end Sys2Proof.Proofs
end

section
/-! SUPPORT. The layout planner and well-formed configurations (42_configuration.md R154, R162 to R167):
the field table planned from declarations that resolve, the errors of a declaration list, and `WF(CFG)` as
what elaborates. -/

namespace Sys2Proof.Proofs

open Sys2Proof.Machine Sys2Proof.Safety

/-! ### The planned table -/

/-- The field has the declared name and the specifier of the declared type. -/
def PlannedFrom (d : FieldDecl) (fld : Field) : Prop :=
  fld.name = d.name ∧ specifierOf d.type = .ok { kind := fld.kind, bits := fld.bits, cwid := fld.cwid }

/-- The declarations in order are those of the fields in order. -/
abbrev TableOf (decls : List FieldDecl) (fields : List Field) : Prop :=
  List.Forall₂ PlannedFrom decls fields

theorem resolveFields_cons {d : FieldDecl} {sp : Specifier} (decls : List FieldDecl)
    (h : specifierOf d.type = .ok sp) :
    resolveFields (d :: decls) = (d.name, sp) :: resolveFields decls := by
  simp [resolveFields, h]

/-- Where every type resolves, the scan makes one field per declaration and leaves no gap (R162). -/
theorem placeFields_table {decls : List FieldDecl} (off : Nat)
    (h : ∀ d ∈ decls, ∃ sp, specifierOf d.type = .ok sp) :
    TableOf decls (placeFields off (resolveFields decls)) ∧
      fieldsChained off (placeFields off (resolveFields decls)) = true := by
  induction decls generalizing off with
  | nil => exact ⟨.nil, rfl⟩
  | cons d decls ih =>
    obtain ⟨⟨sp, hsp⟩, hrest⟩ := List.forall_mem_cons.1 h
    obtain ⟨htable, hchain⟩ := ih (off + sp.bits) hrest
    rw [resolveFields_cons decls hsp, placeFields]
    exact ⟨.cons ⟨rfl, hsp⟩ htable, by simpa [fieldsChained] using hchain⟩

/-- A chained table of the declarations is the one the scan makes. -/
theorem placeFields_of_table {decls : List FieldDecl} {fields : List Field} {off : Nat}
    (h : TableOf decls fields) (hc : fieldsChained off fields = true) :
    placeFields off (resolveFields decls) = fields := by
  induction h generalizing off with
  | nil => rfl
  | cons hd _ ih =>
    obtain ⟨hname, hsp⟩ := hd
    simp only [fieldsChained, Bool.and_eq_true, decide_eq_true_eq] at hc
    obtain ⟨rfl, hrest⟩ := hc
    rw [resolveFields_cons _ hsp, placeFields, ih hrest, ← hname]

theorem plannedFrom_of_table {decls : List FieldDecl} {fields : List Field} {f : Nat} {d : FieldDecl}
    {fld : Field} (h : TableOf decls fields) (hd : decls[f]? = some d) (hfld : fields[f]? = some fld) :
    PlannedFrom d fld := by
  obtain ⟨hf, rfl⟩ := List.getElem?_eq_some_iff.1 hd
  obtain ⟨hf', rfl⟩ := List.getElem?_eq_some_iff.1 hfld
  exact h.get hf hf'

/-! ### The errors of a declaration list -/

section
variable {d : FieldDecl}

theorem fieldErrors_of_error {es : List ConfigError} (h : specifierOf d.type = .error es) :
    fieldErrors d = es := by
  simp [fieldErrors, h]

/-- Where the type has a specifier, only the width assertion can fail (R164). -/
theorem mem_fieldErrors_of_ok {sp : Specifier} {x : ConfigError} (h : specifierOf d.type = .ok sp) :
    x ∈ fieldErrors d ↔
      ∃ n, d.asserted = some n ∧ n ≠ sp.bits ∧ x = .widthMismatch d.name n sp.bits := by
  cases hasserted : d.asserted with
  | none => simp [fieldErrors, h, hasserted]
  | some n => simp [fieldErrors, h, hasserted]

theorem unknown_mem_fieldErrors :
    .unknownSpecifier ∈ fieldErrors d ↔ ¬HasSpecifier d.type := by
  cases h : specifierOf d.type with
  | ok sp => simp [mem_fieldErrors_of_ok h, (specifierOf_eq_ok h).1]
  | error es =>
    rw [fieldErrors_of_error h]
    refine iff_of_true (specifierOf_eq_error h).1 fun hhas => ?_
    obtain ⟨sp, hsp⟩ := exists_specifierOf hhas
    cases hsp.symm.trans h

theorem mismatch_mem_fieldErrors {name : FieldName} {expected actual : Nat} :
    .widthMismatch name expected actual ∈ fieldErrors d ↔
      ∃ sp, d.name = name ∧ d.asserted = some expected ∧ specifierOf d.type = .ok sp ∧
        sp.bits = actual ∧ expected ≠ actual := by
  cases h : specifierOf d.type with
  | ok sp =>
    rw [mem_fieldErrors_of_ok h]
    constructor
    · rintro ⟨n, hn, hne, heq⟩
      cases heq
      exact ⟨sp, rfl, hn, rfl, rfl, hne⟩
    · rintro ⟨sp', rfl, hn, hsp, rfl, hne⟩
      cases hsp
      exact ⟨expected, hn, hne, rfl⟩
  | error es => simp [fieldErrors_of_error h, (specifierOf_eq_error h).2]

/-- A declaration with no error resolves to a specifier of the width it asserts. -/
theorem fieldErrors_eq_nil (h : fieldErrors d = []) :
    ∃ sp, specifierOf d.type = .ok sp ∧ ∀ n, d.asserted = some n → n = sp.bits := by
  cases hsp : specifierOf d.type with
  | ok sp =>
    refine ⟨sp, rfl, fun n hn => ?_⟩
    by_contra hne
    have hmem := (mem_fieldErrors_of_ok hsp).2 ⟨n, hn, hne, rfl⟩
    simp [h] at hmem
  | error es =>
    have hmem := (specifierOf_eq_error hsp).1
    rw [← fieldErrors_of_error hsp, h] at hmem
    simp at hmem

end

section
variable {decls : List FieldDecl}

theorem allResolve_iff :
    allResolve decls = true ↔ ∀ d ∈ decls, ∃ sp, specifierOf d.type = .ok sp := by
  rw [allResolve, List.all_eq_true]
  refine forall₂_congr fun d _ => ?_
  cases specifierOf d.type <;> simp [Except.isOk, Except.toBool]

theorem mem_configErrors {x : ConfigError} :
    x ∈ configErrors decls ↔ (∃ d ∈ decls, x ∈ fieldErrors d) ∨
      (x = .misalignedLayout ∧ allResolve decls = true ∧ totalBits (planTable decls) % 8 ≠ 0) := by
  rw [configErrors, List.mem_append, List.mem_flatMap]
  refine or_congr_right ?_
  split
  next h => simp [h]
  next h => simp only [List.not_mem_nil, h, and_false]

theorem misaligned_mem_configErrors (h : allResolve decls = true) :
    .misalignedLayout ∈ configErrors decls ↔ totalBits (planTable decls) % 8 ≠ 0 := by
  rw [mem_configErrors, or_iff_right]
  · simp [h]
  · rintro ⟨d, hd, hmem⟩
    obtain ⟨sp, hsp⟩ := allResolve_iff.1 h d hd
    simp [mem_fieldErrors_of_ok hsp] at hmem

/-- A list with no error resolves, asserts the widths it has, and totals whole bytes. -/
theorem configErrors_eq_nil (h : configErrors decls = []) :
    (∀ d ∈ decls, ∃ sp, specifierOf d.type = .ok sp ∧ ∀ n, d.asserted = some n → n = sp.bits) ∧
      totalBits (planTable decls) % 8 = 0 := by
  have hfields : ∀ d ∈ decls, ∃ sp, specifierOf d.type = .ok sp ∧
      ∀ n, d.asserted = some n → n = sp.bits := fun d hd =>
    fieldErrors_eq_nil (List.eq_nil_iff_forall_not_mem.2 fun x hx => by
      have hmem := mem_configErrors.2 (.inl ⟨d, hd, hx⟩)
      simp [h] at hmem)
  have hresolve : allResolve decls = true :=
    allResolve_iff.2 fun d hd => (hfields d hd).imp fun _ hsp => hsp.1
  have haligned := misaligned_mem_configErrors hresolve
  rw [h] at haligned
  exact ⟨hfields, by simpa using haligned⟩

end

/-- An elaboration that succeeds met no error and has the planned table (R162). -/
theorem elaborate_eq_ok {pw : Nat} {decls : List FieldDecl} {c : Config} :
    elaborate pw decls = .ok c ↔ configErrors decls = [] ∧
      c = { pw, nb := totalBits (planTable decls) / 8, fields := planTable decls } := by
  unfold elaborate
  cases configErrors decls with
  | nil => simp [eq_comm]
  | cons e es => simp

/-- What an elaboration that succeeds has planned: the table of its declarations, chained from position
0, of whole bytes. -/
theorem elaborate_table {pw : Nat} {decls : List FieldDecl} {c : Config}
    (h : elaborate pw decls = .ok c) :
    TableOf decls c.fields ∧ fieldsChained 0 c.fields = true ∧ 8 * c.nb = totalBits c.fields ∧
      ∀ d ∈ decls, ∃ sp, specifierOf d.type = .ok sp ∧ ∀ n, d.asserted = some n → n = sp.bits := by
  obtain ⟨herrors, rfl⟩ := elaborate_eq_ok.1 h
  obtain ⟨hfields, htotal⟩ := configErrors_eq_nil herrors
  obtain ⟨htable, hchain⟩ :=
    placeFields_table 0 fun d hd => (hfields d hd).imp fun _ hsp => hsp.1
  exact ⟨htable, hchain, Nat.mul_div_cancel' (Nat.dvd_of_mod_eq_zero htotal), hfields⟩

/-- Settles O52: the scan makes the table of the declarations, and each error is one test of a field or
of the total. -/
theorem plannerPlacesAndChecks : Obligations.PlannerPlacesAndChecks := by
  refine fun pw decls =>
    ⟨fun c h => ?_, misaligned_mem_configErrors, fun name expected actual => ?_, ?_⟩
  · obtain ⟨htable, hchain, htotal, hfields⟩ := elaborate_table h
    refine ⟨htable.length_eq.symm, htotal, fun f d fld hd hfld => ?_⟩
    obtain ⟨hname, hsp⟩ := plannedFrom_of_table htable hd hfld
    refine ⟨hname, hsp, (off_of_chained hchain hfld).trans (Nat.zero_add _), fun n hn => ?_⟩
    obtain ⟨sp, hsp', hwidth⟩ := hfields d (List.mem_of_getElem? hd)
    cases hsp'.symm.trans hsp
    exact hwidth n hn
  · rw [mem_configErrors]
    simp [mismatch_mem_fieldErrors]
  · rw [mem_configErrors]
    simp only [unknown_mem_fieldErrors, reduceCtorEq, false_and, or_false]
    rfl

/-! ### Well-formed configurations elaborate -/

/-- The variants that carry these discriminants as their literals. -/
def explicitVariants (disc : List Nat) : List Variant := disc.map fun (d : Nat) => .explicit (d : Int)

/-- A declared type of an admitted kind. -/
def typeOfKind : Kind → TypeDecl
  | .prim n => .prim n
  | .bool => .bool
  | .enum disc => .enum (explicitVariants disc)

/-- A declaration of the field, without a width assertion. -/
def declOf (fld : Field) : FieldDecl where
  name := fld.name
  type := typeOfKind fld.kind
  asserted := none

@[simp] theorem length_explicitVariants (disc : List Nat) :
    (explicitVariants disc).length = disc.length := List.length_map _

theorem declaredLiterals_explicitVariants (k : Nat) (disc : List Nat) :
    declaredLiterals k (explicitVariants disc) = disc.map Nat.cast := by
  induction disc generalizing k with
  | nil => rfl
  | cons d disc ih => exact congrArg _ (ih (k + 1))

theorem deriveEnum_explicitVariants {disc : List Nat} {bits : Nat} {cwid : NativeWidth}
    (h : kindAdmitted (.enum disc) bits = true) (hfit : bestFit bits = .ok cwid) :
    deriveEnum (explicitVariants disc) = .ok { kind := .enum disc, bits, cwid } := by
  obtain ⟨-, hcount, hlt, hnd⟩ := kindAdmitted_enum_iff.1 h
  have hlog : Nat.log2 disc.length = bits := by rw [hcount, Nat.log2_two_pow]
  have herrors : enumErrors (explicitVariants disc) = [] := by
    rw [enumErrors_eq_nil, length_explicitVariants, hlog, declaredLiterals_explicitVariants]
    refine ⟨hcount, List.forall_mem_map.2 fun d hd => ?_, hnd.map Nat.cast_injective⟩
    exact ⟨Int.natCast_nonneg d, by exact_mod_cast hlt d hd⟩
  have hdisc : ((disc.map Nat.cast : List Int).map Int.toNat) = disc := by simp [Function.comp_def]
  simp only [deriveEnum, herrors, declaredLiterals_explicitVariants, length_explicitVariants, hlog,
    hdisc, makeSpecifier_of_fit hfit]

theorem specifierOf_typeOfKind {kind : Kind} {bits : Nat} {cwid : NativeWidth}
    (h : kindAdmitted kind bits = true) (hfit : bestFit bits = .ok cwid) :
    specifierOf (typeOfKind kind) = .ok { kind, bits, cwid } := by
  cases kind with
  | prim n =>
    simp only [kindAdmitted, Bool.and_eq_true, decide_eq_true_eq] at h
    obtain ⟨hn, rfl⟩ := h
    rw [typeOfKind, specifierOf_prim, if_pos hn, makeSpecifier_of_fit hfit]
  | bool =>
    obtain rfl : bits = 1 := of_decide_eq_true h
    exact makeSpecifier_of_fit hfit
  | enum disc =>
    obtain ⟨hmax, -⟩ := kindAdmitted_enum_iff.1 h
    exact (specifierOf_enum_of_ok (deriveEnum_explicitVariants h hfit)).trans (if_pos hmax)

theorem plannedFrom_declOf {fld : Field} (h : fieldAdmitted fld = true) :
    PlannedFrom (declOf fld) fld := by
  obtain ⟨hkind, hfit⟩ := fieldAdmitted_iff.1 h
  exact ⟨rfl, specifierOf_typeOfKind hkind hfit⟩

/-- A field planned from a declaration is admitted. -/
theorem fieldAdmitted_of_plannedFrom {d : FieldDecl} {fld : Field} (h : PlannedFrom d fld) :
    fieldAdmitted fld = true :=
  fieldAdmitted_iff.2 (specifierOf_eq_ok h.2).2

theorem elaborate_of_wf {c : Config} (hwf : configWf c = true) :
    elaborate c.pw (c.fields.map declOf) = .ok c := by
  obtain ⟨hadm, hchain, htotal, -⟩ := configWf_iff.1 hwf
  have htable : TableOf (c.fields.map declOf) c.fields :=
    List.forall₂_map_left_iff.2 (List.forall₂_same.2 fun fld hfld => plannedFrom_declOf (hadm fld hfld))
  have hplan : planTable (c.fields.map declOf) = c.fields := placeFields_of_table htable hchain
  refine elaborate_eq_ok.2 ⟨List.eq_nil_iff_forall_not_mem.2 fun x hx => ?_, ?_⟩
  · obtain ⟨d, hd, hmem⟩ | ⟨-, -, hmod⟩ := mem_configErrors.1 hx
    · obtain ⟨fld, hfld, rfl⟩ := List.mem_map.1 hd
      rw [mem_fieldErrors_of_ok (plannedFrom_declOf (hadm fld hfld)).2] at hmem
      simp [declOf] at hmem
    · rw [hplan, ← htotal] at hmod
      omega
  · rw [hplan, ← htotal, Nat.mul_div_cancel_left _ (by decide)]

theorem wf_of_elaborate {c : Config} {decls : List FieldDecl} (h : elaborate c.pw decls = .ok c)
    (hpw : 8 * c.nb < 2 ^ c.pw) : configWf c = true := by
  obtain ⟨htable, hchain, htotal, -⟩ := elaborate_table h
  refine configWf_iff.2 ⟨fun fld hfld => ?_, hchain, htotal, hpw⟩
  obtain ⟨f, hf⟩ := List.getElem?_of_mem hfld
  have hlt : f < decls.length := htable.length_eq ▸ (List.getElem?_eq_some_iff.1 hf).1
  exact fieldAdmitted_of_plannedFrom (plannedFrom_of_table htable (List.getElem?_eq_getElem hlt) hf)

/-! ### The conditions of R167 -/

/-- A chain is a first offset and, from each field to the next, an advance by the width. -/
theorem fieldsChained_iff {fields : List Field} {off : Nat} :
    fieldsChained off fields = true ↔
      (∀ fld : Field, fields[0]? = some fld → fld.off = off) ∧
      (∀ (f : Nat) (fld next : Field), fields[f]? = some fld → fields[f + 1]? = some next →
        next.off = fld.off + fld.bits) := by
  induction fields generalizing off with
  | nil => simp [fieldsChained]
  | cons g fields ih =>
    simp only [fieldsChained, Bool.and_eq_true, decide_eq_true_eq, ih]
    constructor
    · rintro ⟨rfl, hfirst, hnext⟩
      refine ⟨by simp, fun f fld next hf hf' => ?_⟩
      cases f with
      | zero =>
        obtain rfl : g = fld := by simpa using hf
        exact hfirst next (by simpa using hf')
      | succ f => exact hnext f fld next (by simpa using hf) (by simpa using hf')
    · rintro ⟨hfirst, hnext⟩
      obtain rfl : g.off = off := hfirst g rfl
      exact ⟨rfl, fun fld hf => hnext 0 g fld rfl (by simpa using hf),
        fun f fld next hf hf' => hnext (f + 1) fld next (by simpa using hf) (by simpa using hf')⟩

/-- Conditions 1 to 3 of R167 on one field, with the bound of log 15 on an enum. -/
def FieldConditions (fld : Field) : Prop :=
  (match fld.kind with
    | .prim n => n ≤ 64 ∧ fld.bits = n
    | .bool => fld.bits = 1
    | .enum disc =>
      fld.bits ≤ 63 ∧ disc.length = 2 ^ fld.bits ∧ (∀ d ∈ disc, d < 2 ^ fld.bits) ∧ disc.Nodup) ∧
    bestFit fld.bits = .ok fld.cwid

theorem fieldConditions_iff {fld : Field} : fieldAdmitted fld = true ↔ FieldConditions fld := by
  rw [fieldAdmitted_iff, FieldConditions]
  refine and_congr_left fun _ => ?_
  cases fld.kind with
  | prim n => simp [kindAdmitted]
  | bool => simp [kindAdmitted]
  | enum disc => exact kindAdmitted_enum_iff

theorem configWf_iff_conditions {c : Config} :
    configWf c = true ↔
      (∀ (f : Nat) (fld : Field), c.fields[f]? = some fld → FieldConditions fld) ∧
      (∀ fld : Field, c.fields[0]? = some fld → fld.off = 0) ∧
      (∀ (f : Nat) (fld next : Field), c.fields[f]? = some fld → c.fields[f + 1]? = some next →
        next.off = fld.off + fld.bits) ∧
      8 * c.nb = totalBits c.fields ∧ 8 * c.nb < 2 ^ c.pw := by
  have hfields : (∀ fld ∈ c.fields, fieldAdmitted fld = true) ↔
      ∀ (f : Nat) (fld : Field), c.fields[f]? = some fld → FieldConditions fld := by
    simp only [fieldConditions_iff, List.mem_iff_getElem?, forall_exists_index]
    exact forall_comm
  rw [configWf_iff, hfields, fieldsChained_iff, and_assoc]

/-- Settles O54: a well-formed table is planned from the declarations of its fields, and a planned field
is admitted; the conditions are those of `configWf`, by index. -/
theorem wellFormedIsElaborated : Obligations.WellFormedIsElaborated := by
  refine fun c => ⟨⟨fun hwf => ⟨⟨_, elaborate_of_wf hwf⟩, ?_⟩, ?_⟩, configWf_iff_conditions⟩
  · obtain ⟨-, -, -, hpw⟩ := configWf_iff.1 hwf
    exact hpw
  · rintro ⟨⟨decls, h⟩, hpw⟩
    exact wf_of_elaborate h hpw

end Sys2Proof.Proofs
end
